-- ==== Sys2Proof/Word.lean ====
section
/-! DEFINITION. The plain value types of the machine (spec/10_state.md R20, R25; spec/30_encoding.md R82). -/

namespace Sys2Proof

/-- A general register's value and a byte of memory: 8 bits, unsigned (R20, R50). -/
abbrev Byte := BitVec 8

/-- An instruction word, the program counter, the index register and a stack slot: 16 bits (R25, R28, R29, R81). -/
abbrev Word := BitVec 16

/-- The address field NNN: 12 bits (R82). -/
abbrev Addr := BitVec 12

/-- The field N, a sprite height or a sub-operation: 4 bits (R82). -/
abbrev Nibble := BitVec 4

/-- The index of a general register, 0 to 15 (R20). -/
abbrev Reg := Fin 16

end Sys2Proof
end

