-- ==== Sys2Proof/Syntax.lean ====
section
/-! DEFINITION. The instructions: one constructor per row of spec/opcode_table.json
(spec/30_encoding.md R86), in the table's order. -/

namespace Sys2Proof

inductive Instr
  /-- 00E0 CLS (R163) -/
  | cls
  /-- 00EE RET (R111) -/
  | ret
  /-- 0NNN SYS addr (R110) -/
  | sysAddr (nnn : Addr)
  /-- 1NNN JP addr (R112) -/
  | jpAddr (nnn : Addr)
  /-- 2NNN CALL addr (R113) -/
  | callAddr (nnn : Addr)
  /-- 3XNN SE Vx, byte (R114) -/
  | seByte (x : Reg) (nn : Byte)
  /-- 4XNN SNE Vx, byte (R115) -/
  | sneByte (x : Reg) (nn : Byte)
  /-- 5XY0 SE Vx, Vy (R116) -/
  | seReg (x y : Reg)
  /-- 6XNN LD Vx, byte (R130) -/
  | ldByte (x : Reg) (nn : Byte)
  /-- 7XNN ADD Vx, byte (R131) -/
  | addByte (x : Reg) (nn : Byte)
  /-- 8XY0 LD Vx, Vy (R134) -/
  | ldReg (x y : Reg)
  /-- 8XY1 OR Vx, Vy (R135) -/
  | orReg (x y : Reg)
  /-- 8XY2 AND Vx, Vy (R136) -/
  | andReg (x y : Reg)
  /-- 8XY3 XOR Vx, Vy (R137) -/
  | xorReg (x y : Reg)
  /-- 8XY4 ADD Vx, Vy (R138) -/
  | addReg (x y : Reg)
  /-- 8XY5 SUB Vx, Vy (R139) -/
  | subReg (x y : Reg)
  /-- 8XY6 SHR Vx (R140); `y` is the ignored field Y (R89) -/
  | shr (x y : Reg)
  /-- 8XY7 SUBN Vx, Vy (R141) -/
  | subnReg (x y : Reg)
  /-- 8XYE SHL Vx (R142); `y` is the ignored field Y (R89) -/
  | shl (x y : Reg)
  /-- 9XY0 SNE Vx, Vy (R117) -/
  | sneReg (x y : Reg)
  /-- ANNN LD I, addr (R190) -/
  | ldIAddr (nnn : Addr)
  /-- BNNN JP V0, addr (R118) -/
  | jpV0Addr (nnn : Addr)
  /-- CXNN RND Vx, byte (R145) -/
  | rndByte (x : Reg) (nn : Byte)
  /-- DXYN DRW Vx, Vy, nibble (R162) -/
  | drw (x y : Reg) (n : Nibble)
  /-- EX9E SKP Vx (R170) -/
  | skp (x : Reg)
  /-- EXA1 SKNP Vx (R171) -/
  | sknp (x : Reg)
  /-- FX07 LD Vx, DT (R180) -/
  | ldVxDt (x : Reg)
  /-- FX0A LD Vx, K (R172) -/
  | ldVxK (x : Reg)
  /-- FX15 LD DT, Vx (R181) -/
  | ldDtVx (x : Reg)
  /-- FX18 LD ST, Vx (R182) -/
  | ldStVx (x : Reg)
  /-- FX1E ADD I, Vx (R191) -/
  | addIVx (x : Reg)
  /-- FX29 LD F, Vx (R192) -/
  | ldFVx (x : Reg)
  /-- FX33 LD B, Vx (R194) -/
  | ldBVx (x : Reg)
  /-- FX55 LD [I], Vx (R195) -/
  | ldMemVx (x : Reg)
  /-- FX65 LD Vx, [I] (R196) -/
  | ldVxMem (x : Reg)
deriving DecidableEq, Repr

end Sys2Proof
end

