-- ==== Sys2Proof/WellFormed.lean ====
section
/-! DEFINITION. Which instructions an encoding exists for. Every field has exactly the width of its
bits, so only SYS carries a check: its row is matched after CLS and RET (spec/30_encoding.md R85,
R86), so the words 0x00E0 and 0x00EE are no SYS (spec/40_control_flow.md R110). -/

namespace Sys2Proof

/-- The check every decoded instruction meets. -/
def Instr.wf : Instr → Bool
  | .sysAddr nnn => nnn != 0x0E0#12 && nnn != 0x0EE#12
  | .cls | .ret => true
  | .jpAddr _ | .callAddr _ | .ldIAddr _ | .jpV0Addr _ => true
  | .seByte _ _ | .sneByte _ _ | .ldByte _ _ | .addByte _ _ | .rndByte _ _ => true
  | .seReg _ _ | .sneReg _ _ | .ldReg _ _ | .orReg _ _ | .andReg _ _ | .xorReg _ _ => true
  | .addReg _ _ | .subReg _ _ | .shr _ _ | .subnReg _ _ | .shl _ _ => true
  | .drw _ _ _ => true
  | .skp _ | .sknp _ => true
  | .ldVxDt _ | .ldVxK _ | .ldDtVx _ | .ldStVx _ => true
  | .addIVx _ | .ldFVx _ | .ldBVx _ | .ldMemVx _ | .ldVxMem _ => true

end Sys2Proof
end

