-- ==== Sys2Proof/Decode.lean ====
section
/-! DEFINITION. Decoding and encoding (spec/30_encoding.md R81 to R89). `decode` is the spec's
`Decode(op)` of R85; `encode` writes the words of R86. -/

namespace Sys2Proof

/-- Why bytes are no instruction. -/
inductive DecodeError
  /-- The word matches no row: `UnimplementedOpcode(op)` (R85, R88). -/
  | unimplementedOpcode (op : Word)
  /-- Fewer than two bytes: an instruction is always two bytes (R81). -/
  | truncated
deriving DecidableEq, Repr

/-- `op[15:12]`, the top nibble (R82). -/
def majorField (op : Word) : Nibble := op.extractLsb' 12 4
/-- `X = op[11:8]` (R82). -/
def xField (op : Word) : Reg := (op.extractLsb' 8 4).toFin
/-- `Y = op[7:4]` (R82). -/
def yField (op : Word) : Reg := (op.extractLsb' 4 4).toFin
/-- `N = op[3:0]` (R82). -/
def nField (op : Word) : Nibble := op.extractLsb' 0 4
/-- `NN = op[7:0]` (R82). -/
def nnField (op : Word) : Byte := op.extractLsb' 0 8
/-- `NNN = op[11:0]` (R82). -/
def nnnField (op : Word) : Addr := op.extractLsb' 0 12

/-- Family 0: CLS and RET on all 16 bits, every other word is SYS (R85). -/
def decode0 (op : Word) : Except DecodeError Instr :=
  if op = 0x00E0#16 then .ok .cls
  else if op = 0x00EE#16 then .ok .ret
  else .ok (.sysAddr (nnnField op))

/-- Family 8: the sub-operation is N (R85). -/
def decode8 (op : Word) : Except DecodeError Instr :=
  match nField op with
  | 0x0#4 => .ok (.ldReg (xField op) (yField op))
  | 0x1#4 => .ok (.orReg (xField op) (yField op))
  | 0x2#4 => .ok (.andReg (xField op) (yField op))
  | 0x3#4 => .ok (.xorReg (xField op) (yField op))
  | 0x4#4 => .ok (.addReg (xField op) (yField op))
  | 0x5#4 => .ok (.subReg (xField op) (yField op))
  | 0x6#4 => .ok (.shr (xField op) (yField op))
  | 0x7#4 => .ok (.subnReg (xField op) (yField op))
  | 0xE#4 => .ok (.shl (xField op) (yField op))
  | _ => .error (.unimplementedOpcode op)

/-- Family E: the function is the whole low byte (R85). -/
def decodeE (op : Word) : Except DecodeError Instr :=
  match nnField op with
  | 0x9E#8 => .ok (.skp (xField op))
  | 0xA1#8 => .ok (.sknp (xField op))
  | _ => .error (.unimplementedOpcode op)

/-- Family F: the function is the whole low byte (R85). -/
def decodeF (op : Word) : Except DecodeError Instr :=
  match nnField op with
  | 0x07#8 => .ok (.ldVxDt (xField op))
  | 0x0A#8 => .ok (.ldVxK (xField op))
  | 0x15#8 => .ok (.ldDtVx (xField op))
  | 0x18#8 => .ok (.ldStVx (xField op))
  | 0x1E#8 => .ok (.addIVx (xField op))
  | 0x29#8 => .ok (.ldFVx (xField op))
  | 0x33#8 => .ok (.ldBVx (xField op))
  | 0x55#8 => .ok (.ldMemVx (xField op))
  | 0x65#8 => .ok (.ldVxMem (xField op))
  | _ => .error (.unimplementedOpcode op)

/-- `Decode(op)` (R85): dispatch on the top nibble, then on a secondary nibble or byte. -/
def decode (op : Word) : Except DecodeError Instr :=
  match majorField op with
  | 0x0#4 => decode0 op
  | 0x1#4 => .ok (.jpAddr (nnnField op))
  | 0x2#4 => .ok (.callAddr (nnnField op))
  | 0x3#4 => .ok (.seByte (xField op) (nnField op))
  | 0x4#4 => .ok (.sneByte (xField op) (nnField op))
  | 0x5#4 => if nField op = 0#4 then .ok (.seReg (xField op) (yField op))
             else .error (.unimplementedOpcode op)
  | 0x6#4 => .ok (.ldByte (xField op) (nnField op))
  | 0x7#4 => .ok (.addByte (xField op) (nnField op))
  | 0x8#4 => decode8 op
  | 0x9#4 => if nField op = 0#4 then .ok (.sneReg (xField op) (yField op))
             else .error (.unimplementedOpcode op)
  | 0xA#4 => .ok (.ldIAddr (nnnField op))
  | 0xB#4 => .ok (.jpV0Addr (nnnField op))
  | 0xC#4 => .ok (.rndByte (xField op) (nnField op))
  | 0xD#4 => .ok (.drw (xField op) (yField op) (nField op))
  | 0xE#4 => decodeE op
  | 0xF#4 => decodeF op
  | _ => .error (.unimplementedOpcode op)

/-- The word two bytes of memory spell, the first being the high byte (R59). -/
def wordOfBytes (hi lo : Byte) : Word := hi ++ lo

/-- The instruction at the head of a byte sequence and the bytes after it (R81). -/
def decodeBytes : List Byte → Except DecodeError (Instr × List Byte)
  | hi :: lo :: rest =>
    match decode (wordOfBytes hi lo) with
    | .ok i => .ok (i, rest)
    | .error e => .error e
  | _ => .error .truncated

/-- The high byte of an instruction word, at the lower address (R59). -/
def highByte (op : Word) : Byte := op.extractLsb' 8 8
/-- The low byte of an instruction word, at the higher address (R59). -/
def lowByte (op : Word) : Byte := op.extractLsb' 0 8

/-- The instruction word the opcode table numbers `w` in a row of `nbits` bits; every row is one
16-bit word, and the bits above `nbits` are 0. -/
def tableWord (nbits w : Nat) : Word := BitVec.ofNat 16 (w % 2 ^ nbits)

/-- What the decoder reads from the table's word, laid out in memory as the hardware stores it. -/
def decodeTableWord (nbits w : Nat) : Option Instr :=
  match decodeBytes [highByte (tableWord nbits w), lowByte (tableWord nbits w)] with
  | .ok (i, _) => some i
  | .error _ => none

/-- A register index as the four bits of its field (R82). -/
def regNibble (x : Reg) : Nibble := BitVec.ofFin (w := 4) x

/-- A word of format ADDR (R83): top nibble and NNN. -/
def wordAddr (major : Nibble) (nnn : Addr) : Word := major ++ nnn
/-- A word of format REG_IMM or REG_FN (R83): top nibble, X and the low byte. -/
def wordRegImm (major : Nibble) (x : Reg) (nn : Byte) : Word :=
  (major ++ regNibble x : BitVec 8) ++ nn
/-- A word of format REG_REG (R83): top nibble, X, Y and N. -/
def wordRegReg (major : Nibble) (x y : Reg) (n : Nibble) : Word :=
  (major ++ regNibble x : BitVec 8) ++ (regNibble y ++ n : BitVec 8)

/-- The word of an instruction, from the patterns of R86. -/
def encode : Instr → Word
  | .cls => 0x00E0#16
  | .ret => 0x00EE#16
  | .sysAddr nnn => wordAddr 0x0#4 nnn
  | .jpAddr nnn => wordAddr 0x1#4 nnn
  | .callAddr nnn => wordAddr 0x2#4 nnn
  | .seByte x nn => wordRegImm 0x3#4 x nn
  | .sneByte x nn => wordRegImm 0x4#4 x nn
  | .seReg x y => wordRegReg 0x5#4 x y 0x0#4
  | .ldByte x nn => wordRegImm 0x6#4 x nn
  | .addByte x nn => wordRegImm 0x7#4 x nn
  | .ldReg x y => wordRegReg 0x8#4 x y 0x0#4
  | .orReg x y => wordRegReg 0x8#4 x y 0x1#4
  | .andReg x y => wordRegReg 0x8#4 x y 0x2#4
  | .xorReg x y => wordRegReg 0x8#4 x y 0x3#4
  | .addReg x y => wordRegReg 0x8#4 x y 0x4#4
  | .subReg x y => wordRegReg 0x8#4 x y 0x5#4
  | .shr x y => wordRegReg 0x8#4 x y 0x6#4
  | .subnReg x y => wordRegReg 0x8#4 x y 0x7#4
  | .shl x y => wordRegReg 0x8#4 x y 0xE#4
  | .sneReg x y => wordRegReg 0x9#4 x y 0x0#4
  | .ldIAddr nnn => wordAddr 0xA#4 nnn
  | .jpV0Addr nnn => wordAddr 0xB#4 nnn
  | .rndByte x nn => wordRegImm 0xC#4 x nn
  | .drw x y n => wordRegReg 0xD#4 x y n
  | .skp x => wordRegImm 0xE#4 x 0x9E#8
  | .sknp x => wordRegImm 0xE#4 x 0xA1#8
  | .ldVxDt x => wordRegImm 0xF#4 x 0x07#8
  | .ldVxK x => wordRegImm 0xF#4 x 0x0A#8
  | .ldDtVx x => wordRegImm 0xF#4 x 0x15#8
  | .ldStVx x => wordRegImm 0xF#4 x 0x18#8
  | .addIVx x => wordRegImm 0xF#4 x 0x1E#8
  | .ldFVx x => wordRegImm 0xF#4 x 0x29#8
  | .ldBVx x => wordRegImm 0xF#4 x 0x33#8
  | .ldMemVx x => wordRegImm 0xF#4 x 0x55#8
  | .ldVxMem x => wordRegImm 0xF#4 x 0x65#8

/-- The `mask` of an instruction's row (R86): the bits the row fixes. -/
def opcodeMask : Instr → Word
  | .cls | .ret => 0xFFFF#16
  | .sysAddr _ | .jpAddr _ | .callAddr _ | .seByte _ _ | .sneByte _ _ | .ldByte _ _
  | .addByte _ _ | .ldIAddr _ | .jpV0Addr _ | .rndByte _ _ | .drw _ _ _ => 0xF000#16
  | .seReg _ _ | .ldReg _ _ | .orReg _ _ | .andReg _ _ | .xorReg _ _ | .addReg _ _
  | .subReg _ _ | .shr _ _ | .subnReg _ _ | .shl _ _ | .sneReg _ _ => 0xF00F#16
  | .skp _ | .sknp _ | .ldVxDt _ | .ldVxK _ | .ldDtVx _ | .ldStVx _ | .addIVx _ | .ldFVx _
  | .ldBVx _ | .ldMemVx _ | .ldVxMem _ => 0xF0FF#16

/-- The `match` of an instruction's row (R86): the value of the bits the row fixes. -/
def opcodeMatch : Instr → Word
  | .cls => 0x00E0#16
  | .ret => 0x00EE#16
  | .sysAddr _ => 0x0000#16
  | .jpAddr _ => 0x1000#16
  | .callAddr _ => 0x2000#16
  | .seByte _ _ => 0x3000#16
  | .sneByte _ _ => 0x4000#16
  | .seReg _ _ => 0x5000#16
  | .ldByte _ _ => 0x6000#16
  | .addByte _ _ => 0x7000#16
  | .ldReg _ _ => 0x8000#16
  | .orReg _ _ => 0x8001#16
  | .andReg _ _ => 0x8002#16
  | .xorReg _ _ => 0x8003#16
  | .addReg _ _ => 0x8004#16
  | .subReg _ _ => 0x8005#16
  | .shr _ _ => 0x8006#16
  | .subnReg _ _ => 0x8007#16
  | .shl _ _ => 0x800E#16
  | .sneReg _ _ => 0x9000#16
  | .ldIAddr _ => 0xA000#16
  | .jpV0Addr _ => 0xB000#16
  | .rndByte _ _ => 0xC000#16
  | .drw _ _ _ => 0xD000#16
  | .skp _ => 0xE09E#16
  | .sknp _ => 0xE0A1#16
  | .ldVxDt _ => 0xF007#16
  | .ldVxK _ => 0xF00A#16
  | .ldDtVx _ => 0xF015#16
  | .ldStVx _ => 0xF018#16
  | .addIVx _ => 0xF01E#16
  | .ldFVx _ => 0xF029#16
  | .ldBVx _ => 0xF033#16
  | .ldMemVx _ => 0xF055#16
  | .ldVxMem _ => 0xF065#16

end Sys2Proof
end

