-- ==== Sys2Proof/Config.lean ====
section
/-! DEFINITION. The free values of a run and the one parameter the spec leaves open.
Every constant here is opaque and has no body, so no proof can learn a value of it, and a claim
about it holds for every value (spec/10_state.md R45; log 1, log 3, log 4). -/

namespace Sys2Proof.Config

/-- The `n`-th sample of the input `delta_us`, any natural number (R263). Log 1. -/
opaque deltaUs : Nat → Nat

/-- The `n`-th sample of the key levels `key_in`, any 16 bits (R229). Log 1. -/
opaque keyIn : Nat → BitVec 16

/-- The `n`-th sample of the quit request `quit_in` (R229). Log 1. -/
opaque quitIn : Nat → Bool

/-- The `n`-th sample of the random byte `rnd_in`, any byte (R145). Log 1. -/
opaque rndIn : Nat → Byte

/-- What a key-wait broken by a shutdown leaves in its register, any byte (R176). Log 3. -/
opaque brokenWait : Nat → Byte

/-- `KEY_OOR`: whether a key test answers "pressed" for a code above 15, which the source leaves
open (R175). It is asked only for codes 16 to 255. Log 4. -/
opaque keyOor : Byte → Bool

end Sys2Proof.Config
end

