-- ==== Sys2Proof/Machine/Params.lean ====
section
/-! DEFINITION. The parameters of the hardware (spec/00_scope.md R6) and the constant `FONT`
(spec/20_memory.md R62). -/

namespace Sys2Proof.Machine

/-- `MEM_SIZE`: addresses 0x000 to 0xFFF (R6, R50). -/
@[simp] abbrev memSize : Nat := 4096

/-- `PROG_BASE`: the load address and the pc at reset (R6, R251). -/
@[simp] abbrev progBase : Nat := 0x200

/-- `ROM_MAX`: the largest program image (R6, R252; 90_conflicts.md C1). Log 13. -/
@[simp] abbrev romMax : Nat := 3584

/-- `STACK_SLOTS` (R6, R29). -/
@[simp] abbrev stackSlots : Nat := 16

/-- The number of display cells, `FB_W * FB_H` (R6, R35). -/
@[simp] abbrev fbCells : Nat := 2048

/-- `FB_W`: the cells of one display row (R6, R35). -/
@[simp] abbrev fbWidth : Nat := 64

/-- `FB_H`: the rows of the display (R6, R35). -/
@[simp] abbrev fbHeight : Nat := 32

/-- How many key codes the key-wait scans: 0 to `KEYWAIT_LAST` = 14, never 15 (R6, R173). -/
@[simp] abbrev keyWaitCodes : Nat := 15

/-- `CYCLE_PERIOD_US` (R6, R262). -/
@[simp] abbrev cyclePeriodUs : Nat := 1666

/-- `TICK_PERIOD_US` (R6, R262). -/
@[simp] abbrev tickPeriodUs : Nat := 16666

/-- The flag register VF is V[15] (R22). -/
@[simp] abbrev vf : Reg := 15

/-- `FONT`: 16 glyphs of 5 bytes, glyph d at addresses 5d to 5d + 4 (R62).
PRESUMED: the spec takes the byte values from general knowledge, so a claim that rests on a
glyph's shape names this constant. Log 5. -/
def font : List Byte :=
  [0xF0, 0x90, 0x90, 0x90, 0xF0] ++ [0x20, 0x60, 0x20, 0x20, 0x70] ++
  [0xF0, 0x10, 0xF0, 0x80, 0xF0] ++ [0xF0, 0x10, 0xF0, 0x10, 0xF0] ++
  [0x90, 0x90, 0xF0, 0x10, 0x10] ++ [0xF0, 0x80, 0xF0, 0x10, 0xF0] ++
  [0xF0, 0x80, 0xF0, 0x90, 0xF0] ++ [0xF0, 0x10, 0x20, 0x40, 0x40] ++
  [0xF0, 0x90, 0xF0, 0x90, 0xF0] ++ [0xF0, 0x90, 0xF0, 0x10, 0xF0] ++
  [0xF0, 0x90, 0xF0, 0x90, 0x90] ++ [0xE0, 0x90, 0xE0, 0x90, 0xE0] ++
  [0xF0, 0x80, 0x80, 0x80, 0xF0] ++ [0xE0, 0x90, 0x90, 0x90, 0xE0] ++
  [0xF0, 0x80, 0xF0, 0x80, 0xF0] ++ [0xF0, 0x80, 0xF0, 0x80, 0x80]

end Sys2Proof.Machine
end

