-- ==== Sys2Proof/Machine/State.lean ====
section
/-! DEFINITION. The state of the core, the reasons a step can stop, and the state after reset
(spec/10_state.md R20 to R45). -/

namespace Sys2Proof.Machine

/-- The cause of a fatal error (spec/60_exceptions.md R211). -/
inductive Cause
  /-- code 0: no fault has occurred -/
  | none
  /-- code 1: an access at an address above 0xFFF -/
  | invalidAddress
  /-- code 2: the fetched word is no instruction that executes -/
  | unimplementedOpcode
  /-- code 3: a CALL with 16 slots in use -/
  | stackOverflow
  /-- code 4: a RET with no slot in use -/
  | stackUnderflow
  /-- code 5: a program image longer than 3584 bytes -/
  | invalidRomSize
deriving DecidableEq, Repr

/-- The fault record (R42): a cause and one 17-bit datum. -/
structure FaultRecord where
  cause : Cause
  datum : BitVec 17
deriving DecidableEq, Repr

/-- The run mode (R39). -/
inductive Mode
  /-- the next CPU step fetches at pc -/
  | run
  /-- an FX0A with destination `x` is in progress -/
  | waitKey (x : Reg)
  /-- `is_on` is 0; terminal -/
  | off
  /-- a fatal error has been raised; terminal -/
  | faulted
deriving DecidableEq, Repr

/-- Memory: the cells that differ from their reset contents, by rising address. -/
abbrev Memory := List Host.Cell

/-- The 2048 cells of a display image (R35): 32 rows, bit `c` of a row being its column `c`. -/
abbrev Frame := Vector (BitVec fbWidth) fbHeight

/-- The state of the core. The last five fields are the model's own: the next sample of each input
port, so that a step is a function of plain data (R9, R45; log 1). -/
structure State where
  /-- V[0] to V[15] (R20); VF is V[15] (R22) -/
  v : Vector Byte 16
  /-- the program counter (R25) -/
  pc : Word
  /-- the index register I (R28) -/
  i : Word
  /-- the call stack's slots (R29) -/
  stack : Vector Word 16
  /-- SP, the number of slots in use, 0 to 16 (R29) -/
  sp : Fin 17
  /-- the delay timer DT (R32) -/
  dt : Byte
  /-- the sound timer ST (R33) -/
  st : Byte
  /-- the 4096 bytes of memory (R34, R50) -/
  mem : Memory
  /-- the display buffer: cell `k` is column `k mod 64` of row `k div 64` (R35) -/
  fb : Frame
  /-- the dirty flag (R36) -/
  dirty : Bool
  /-- the on/off flag `is_on`, which the port `on_out` follows (R37, R9) -/
  isOn : Bool
  /-- the key latch: bit `k` is key `k` (R38) -/
  keys : BitVec 16
  /-- the run mode (R39) -/
  mode : Mode
  /-- elapsed microseconds since the last open cycle gate (R40) -/
  cycleAcc : Nat
  /-- elapsed microseconds towards the next tick (R40) -/
  timerAcc : Nat
  /-- the output latch of the beeper (R41) -/
  beepOut : Bool
  /-- the last frame handed to the display sink (R41) -/
  frameOut : Frame
  /-- the fault record, which the port `fault_out` shows (R42, R9) -/
  fault : FaultRecord
  /-- MODEL'S OWN: the `delta_us` the next iteration sees (R263) -/
  deltaUs : Nat
  /-- MODEL'S OWN: the `key_in` the next tick sees (R229) -/
  keyIn : BitVec 16
  /-- MODEL'S OWN: the `quit_in` the next tick sees (R229) -/
  quitIn : Bool
  /-- MODEL'S OWN: the `rnd_in` the next random draw sees (R145) -/
  rndIn : Byte
  /-- MODEL'S OWN: how many samples the environment has supplied so far -/
  samples : Nat
deriving DecidableEq, Repr

/-- Why `step` has no next state. -/
inductive Fault
  /-- Raised by `step` alone, from mode FAULTED: the core takes no further step and no further tick
  (R214, R261). Safe: the hardware does nothing there either. -/
  | machineFaulted (record : FaultRecord)
  /-- Raised by `step` alone, from mode OFF: the run has ended in order (R37, R261). Safe: the
  hardware does nothing there either. -/
  | machineOff
deriving DecidableEq, Repr

/-- Why an instruction has no meaning. -/
inductive Refusal
  /-- Raised by no arm of `exec`: every instruction of the table has its meaning. Safe. -/
  | notModelled (mnemonic : String)
deriving DecidableEq, Repr

/-- The outcome of a step or of an instruction. -/
abbrev Result := Host.Outcome State Fault Refusal

/-- The state after reset with the empty program image (R43, R250, R254). The unlisted cells of
memory read as the font and as zero. The five ports' values are the model's and no action samples
them (log 2); I, SP, the stack and the other values R43 marks as decided follow R43 (log 9). -/
def State.reset : State where
  v := Vector.replicate 16 0
  pc := 0x200
  i := 0
  stack := Vector.replicate 16 0
  sp := 0
  dt := 0
  st := 0
  mem := []
  fb := Vector.replicate fbHeight 0
  dirty := false
  isOn := true
  keys := 0
  mode := .run
  cycleAcc := 0
  timerAcc := 0
  beepOut := false
  frameOut := Vector.replicate fbHeight 0
  fault := ⟨.none, 0⟩
  deltaUs := 0
  keyIn := 0
  quitIn := false
  rndIn := 0
  samples := 0

end Sys2Proof.Machine
end

