-- ==== Sys2Proof/Machine/Ops.lean ====
section
/-! DEFINITION. The named operations over memory, registers, the call stack, the display buffer and
the ports, and the one operation that raises a fatal error (spec/10_state.md, spec/20_memory.md,
spec/42_display.md, spec/60_exceptions.md R214). -/

namespace Sys2Proof.Machine

/-! ### Memory as data -/

/-- What a cell that no write has changed reads as: the font below 0x050, zero above (R52, R62). -/
def Memory.initial (a : Nat) : Byte := font.getD a 0

/-- The byte at an address, without the range check (R66). -/
def Memory.read : Memory → Nat → Byte
  | [], a => Memory.initial a
  | (b, w) :: m, a => if b = a then w else Memory.read m a

/-- Memory without any entry for `a`. -/
def Memory.erase : Memory → Nat → Memory
  | [], _ => []
  | (b, w) :: m, a => if b = a then Memory.erase m a else (b, w) :: Memory.erase m a

/-- Memory with the entry `(a, v)` at its place in the rising order. -/
def Memory.insert : Memory → Nat → Byte → Memory
  | [], a, v => [(a, v)]
  | (b, w) :: m, a, v => if a < b then (a, v) :: (b, w) :: m else (b, w) :: Memory.insert m a v

/-- A byte written at an address, without the range check. Writing the initial contents back removes
the entry, so equal memories are equal lists. -/
def Memory.write (m : Memory) (a : Nat) (v : Byte) : Memory :=
  if v = Memory.initial a then Memory.erase m a else Memory.insert (Memory.erase m a) a v

/-- Bytes written at `a`, `a + 1`, and so on, without the range check. -/
def Memory.writeAll : Memory → Nat → List Byte → Memory
  | m, _, [] => m
  | m, a, v :: vs => Memory.writeAll (Memory.write m a v) (a + 1) vs

/-- The canonical form: rising addresses, inside the address space, no entry equal to the initial
contents. -/
abbrev Memory.wf (m : Memory) : Prop :=
  m.Pairwise (fun c d => c.1 < d.1) ∧ ∀ c ∈ m, c.1 < memSize ∧ c.2 ≠ Memory.initial c.1

/-! ### Registers and the program counter -/

/-- `V[r]` (R20). -/
def State.readV (s : State) (r : Reg) : Byte := s.v[r.val]

/-- `V[r] <- b` (R20). No register is hardwired. -/
def State.writeV (s : State) (r : Reg) (b : Byte) : State :=
  { s with v := s.v.set r.val b }

/-- `pc <- t`: a transfer lands on its target exactly (R26). -/
def State.jump (s : State) (t : Word) : State := { s with pc := t }

/-- `pc <- pc + 2`, the end of every step that assigns no pc (R25). -/
def State.advance (s : State) : State := s.jump (s.pc + 2)

/-- `pc <- pc + 4` when the condition holds, else `pc <- pc + 2` (R26). -/
def State.skipIf (s : State) (c : Bool) : State := s.jump (if c then s.pc + 4 else s.pc + 2)

/-! ### Fatal errors -/

/-- The numeric code of a cause, as the port `fault_out` shows it (R211). -/
def Cause.code : Cause → Nat
  | .none => 0
  | .invalidAddress => 1
  | .unimplementedOpcode => 2
  | .stackOverflow => 3
  | .stackUnderflow => 4
  | .invalidRomSize => 5

/-- `raise E(d)` (R214): the record is latched and the mode becomes FAULTED; nothing else changes,
in particular not the pc. There is no return from it (R217). -/
def State.raise (s : State) (c : Cause) (d : Nat) : State :=
  { s with fault := ⟨c, BitVec.ofNat 17 d⟩, mode := .faulted }

/-- What an operation that may raise answers: a value and the state it leaves, or the state after
the `raise`, at which the rest of the step is abandoned (R214). -/
inductive Access (α : Type)
  | done (value : α) (s : State)
  | raised (s : State)
deriving DecidableEq, Repr

/-! ### Memory accesses with their range check (R53, R54) -/

/-- `MemRead(a, 1)` (R55). -/
def State.memRead (s : State) (a : Nat) : Access Byte :=
  if a < memSize then .done (s.mem.read a) s else .raised (s.raise .invalidAddress a)

/-- `MemRead(a, 2)`, big-endian; the datum of the error is `a + 1` (R56). -/
def State.memReadWord (s : State) (a : Nat) : Access Word :=
  if a + 1 < memSize then .done (s.mem.read a ++ s.mem.read (a + 1)) s
  else .raised (s.raise .invalidAddress (a + 1))

/-- `MemWrite(a, 1, v)` (R57). -/
def State.memWrite (s : State) (a : Nat) (v : Byte) : Access Unit :=
  if a < memSize then .done () { s with mem := s.mem.write a v }
  else .raised (s.raise .invalidAddress a)

/-- Byte stores at `a`, `a + 1`, and so on, each checked when it is made (R197). -/
def State.storeBytes (s : State) (a : Nat) : List Byte → Access Unit
  | [] => .done () s
  | b :: bs =>
    match s.memWrite a b with
    | .done _ t => t.storeBytes (a + 1) bs
    | .raised t => .raised t

/-- Byte loads from `a`, `a + 1`, and so on into the listed registers, each checked when it is made
(R197). -/
def State.loadRegs (s : State) (a : Nat) : List Reg → Access Unit
  | [] => .done () s
  | r :: rs =>
    match s.memRead a with
    | .done b t => (t.writeV r b).loadRegs (a + 1) rs
    | .raised t => .raised t

/-- Instruction fetch: the word at pc (R58). -/
def State.fetch (s : State) : Access Word := s.memReadWord s.pc.toNat

/-! ### The call stack -/

/-- `Push(v)` (R30). -/
def State.push (s : State) (v : Word) : Access Unit :=
  if h : s.sp.val < stackSlots then
    .done () { s with stack := s.stack.set s.sp.val v, sp := ⟨s.sp.val + 1, Nat.succ_lt_succ h⟩ }
  else .raised (s.raise .stackOverflow s.pc.toNat)

/-- `Pop()` (R31); the popped slot keeps its contents (R111). -/
def State.pop (s : State) : Access Word :=
  if h : 0 < s.sp.val then
    .done (s.stack[s.sp.val - 1]'(by have := s.sp.isLt; omega))
      { s with sp := ⟨s.sp.val - 1, by have := s.sp.isLt; omega⟩ }
  else .raised (s.raise .stackUnderflow s.pc.toNat)

/-! ### The display buffer -/

/-- The row of cell `k mod 2048` (R35, R71). -/
def cellRow (k : Nat) : Fin fbHeight :=
  ⟨k % fbCells / fbWidth, Nat.div_lt_of_lt_mul (Nat.mod_lt k (by decide))⟩

/-- The column of cell `k mod 2048` (R35, R71). -/
def cellCol (k : Nat) : Nat := k % fbCells % fbWidth

/-- `fb[k mod 2048]` (R71). -/
def State.cell (s : State) (k : Nat) : Bool := (s.fb[cellRow k]).getLsbD (cellCol k)

/-- `FbClear()` (R160). -/
def State.fbClear (s : State) : State := 
  { s with fb := Vector.replicate fbHeight 0, dirty := true }

/-- `FbXorSet(k)` without its answer, which is `cell k` of the state before (R161). -/
def State.fbToggle (s : State) (k : Nat) : State :=
  { s with
    fb := s.fb.set (cellRow k).val (s.fb[cellRow k] ^^^ BitVec.twoPow fbWidth (cellCol k))
    dirty := true }

/-! ### The input ports -/

/-- `Rand()`: one fresh sample of `rnd_in` (R145); the port then shows the next free sample. -/
def State.nextRand (s : State) : State :=
  { s with rndIn := Config.rndIn s.samples, samples := s.samples + 1 }

/-- Every port shows its next free sample (R9, R45): the end of an outer-loop iteration. -/
def State.nextSamples (s : State) : State :=
  { s with
    deltaUs := Config.deltaUs s.samples
    keyIn := Config.keyIn s.samples
    quitIn := Config.quitIn s.samples
    rndIn := Config.rndIn s.samples
    samples := s.samples + 1 }

/-! ### The end of a step -/

/-- The end of an instruction that may raise and assigns no pc: `pc <- pc + 2` when it completed,
pc untouched when it raised (R80, R214). -/
def Access.finish : Access Unit → Result
  | .done _ s => .next s.advance
  | .raised s => .next s

/-- A function on the next state, where there is one. -/
def mapNext (f : State → State) : Result → Result
  | .next s => .next (f s)
  | .fault r => .fault r
  | .refused r => .refused r

end Sys2Proof.Machine
end

