-- ==== Sys2Proof/Machine/Flags.lean ====
section
/-! DEFINITION. Every flag computation (spec/10_state.md R23). A flag is the value 0 or 1 written to
VF, last (R24). -/

namespace Sys2Proof.Machine

/-- 1 when the condition holds, else 0 (R10). -/
def flag (c : Bool) : Byte := if c then 1 else 0

/-- The carry of 8XY4: the 9-bit sum exceeds 255 (R138). -/
def carryFlag (a b : Byte) : Byte := flag (decide (255 < a.toNat + b.toNat))

/-- The not-borrow of `a - b`: set when `a >= b`, equal operands included (R139, R141). -/
def notBorrowFlag (a b : Byte) : Byte := flag (decide (b.toNat ≤ a.toNat))

/-- Bit 0 of the value before a shift, for both shifts: SHL does not report bit 7 (R140, R142). -/
def lowBitFlag (a : Byte) : Byte := flag (a.getLsbD 0)

/-- The result to V[x], then the flag to VF; with x = 15 the flag is what stays (R24, R143). -/
def State.writeResultFlag (s : State) (x : Reg) (result f : Byte) : State :=
  (s.writeV x result).writeV vf f

end Sys2Proof.Machine
end

