-- ==== Sys2Proof/Machine/Operands.lean ====
section
/-! DEFINITION. The operand forms (spec/30_encoding.md R84, spec/45_memory_index.md R193): addresses
zero-extended from NNN, the effective address in I, the register lists of FX55 and FX65, the decimal
digits of FX33, and the key a key test names. -/

namespace Sys2Proof.Machine

/-- NNN as a 16-bit number, zero-extended (R84). -/
def addrOperand (nnn : Addr) : Word := nnn.setWidth 16

/-- A register's value as a 16-bit number, zero-extended (R84). -/
def byteOperand (b : Byte) : Word := b.setWidth 16

/-- The base of every data access: I as an unbounded integer, so that `I + k` never wraps
(R54, R193). -/
def State.base (s : State) : Nat := s.i.toNat

/-- All registers in ascending order. -/
def allRegs : List Reg := [0, 1, 2, 3, 4, 5, 6, 7, 8, 9, 10, 11, 12, 13, 14, 15]

/-- Registers 0 to `x` inclusive, ascending (R195, R196). -/
def regsThrough (x : Reg) : List Reg := allRegs.take (x.val + 1)

/-- The hundreds, tens and ones digit of a byte (R194). -/
def bcdDigits (b : Byte) : List Byte :=
  [BitVec.ofNat 8 (b.toNat / 100), BitVec.ofNat 8 (b.toNat / 10 % 10), BitVec.ofNat 8 (b.toNat % 10)]

/-- `KeyPressed(k)`: the latch for a code up to 15 (R174), the open parameter `KEY_OOR` above
(R175, log 4). -/
def State.keyPressed (s : State) (k : Byte) : Bool :=
  if k.toNat < 16 then s.keys.getLsbD k.toNat else Config.keyOor k

end Sys2Proof.Machine
end

