-- ==== Sys2Proof/Machine/Arith.lean ====
section
/-! DEFINITION. The register load, arithmetic, logic, shift and random instructions
(spec/41_arith_logic.md). Operands are read from the state before the step, the result is written,
the flag is written last (R143); arithmetic is modulo 256 (R132). -/

namespace Sys2Proof.Machine

/-- LD Vx, byte (R130). -/
def execLdByte (x : Reg) (nn : Byte) (s : State) : Result :=
  .next (s.writeV x nn).advance

/-- ADD Vx, byte (R131): no flag. -/
def execAddByte (x : Reg) (nn : Byte) (s : State) : Result :=
  .next (s.writeV x (s.readV x + nn)).advance

/-- LD Vx, Vy (R134). -/
def execLdReg (x y : Reg) (s : State) : Result :=
  .next (s.writeV x (s.readV y)).advance

/-- OR Vx, Vy (R135): VF is untouched. -/
def execOrReg (x y : Reg) (s : State) : Result :=
  .next (s.writeV x (s.readV x ||| s.readV y)).advance

/-- AND Vx, Vy (R136): VF is untouched. -/
def execAndReg (x y : Reg) (s : State) : Result :=
  .next (s.writeV x (s.readV x &&& s.readV y)).advance

/-- XOR Vx, Vy (R137): VF is untouched. -/
def execXorReg (x y : Reg) (s : State) : Result :=
  .next (s.writeV x (s.readV x ^^^ s.readV y)).advance

/-- ADD Vx, Vy (R138): VF is the carry. -/
def execAddReg (x y : Reg) (s : State) : Result :=
  .next (s.writeResultFlag x (s.readV x + s.readV y) (carryFlag (s.readV x) (s.readV y))).advance

/-- SUB Vx, Vy (R139): VF is the not-borrow of V[X] - V[Y]. -/
def execSubReg (x y : Reg) (s : State) : Result :=
  .next (s.writeResultFlag x (s.readV x - s.readV y) (notBorrowFlag (s.readV x) (s.readV y))).advance

/-- SHR Vx (R140): V[X] in place, Y ignored (R89); VF is the bit shifted out. -/
def execShr (x _y : Reg) (s : State) : Result :=
  .next (s.writeResultFlag x (s.readV x >>> 1) (lowBitFlag (s.readV x))).advance

/-- SUBN Vx, Vy (R141): VF is the not-borrow of V[Y] - V[X]. -/
def execSubnReg (x y : Reg) (s : State) : Result :=
  .next (s.writeResultFlag x (s.readV y - s.readV x) (notBorrowFlag (s.readV y) (s.readV x))).advance

/-- SHL Vx (R142): V[X] in place, Y ignored (R89); VF is bit 0 before the shift, not bit 7. -/
def execShl (x _y : Reg) (s : State) : Result :=
  .next (s.writeResultFlag x (s.readV x <<< 1) (lowBitFlag (s.readV x))).advance

/-- RND Vx, byte (R145): one fresh sample of `rnd_in`, masked. -/
def execRndByte (x : Reg) (nn : Byte) (s : State) : Result :=
  .next (s.nextRand.writeV x (s.rndIn &&& nn)).advance

end Sys2Proof.Machine
end

