-- ==== Sys2Proof/Machine/Control.lean ====
section
/-! DEFINITION. The control-flow instructions (spec/40_control_flow.md). In every meaning `s.pc` is
the instruction's own address (R25), and no target is checked (R120). -/

namespace Sys2Proof.Machine

/-- RET (R111): a return with no slot in use raises StackUnderflow. -/
def execRet (s : State) : Result :=
  match s.pop with
  | .done t s' => .next (s'.jump t)
  | .raised s' => .next s'

/-- SYS addr (R110): always raises UnimplementedOpcode, the datum being the word 0NNN. -/
def execSysAddr (nnn : Addr) (s : State) : Result :=
  .next (s.raise .unimplementedOpcode nnn.toNat)

/-- JP addr (R112). -/
def execJpAddr (nnn : Addr) (s : State) : Result :=
  .next (s.jump (addrOperand nnn))

/-- CALL addr (R113): the slot holds pc + 2; a call with 16 slots in use raises StackOverflow. -/
def execCallAddr (nnn : Addr) (s : State) : Result :=
  match s.push (s.pc + 2) with
  | .done _ s' => .next (s'.jump (addrOperand nnn))
  | .raised s' => .next s'

/-- SE Vx, byte (R114). -/
def execSeByte (x : Reg) (nn : Byte) (s : State) : Result :=
  .next (s.skipIf (s.readV x == nn))

/-- SNE Vx, byte (R115). -/
def execSneByte (x : Reg) (nn : Byte) (s : State) : Result :=
  .next (s.skipIf (s.readV x != nn))

/-- SE Vx, Vy (R116). -/
def execSeReg (x y : Reg) (s : State) : Result :=
  .next (s.skipIf (s.readV x == s.readV y))

/-- SNE Vx, Vy (R117). -/
def execSneReg (x y : Reg) (s : State) : Result :=
  .next (s.skipIf (s.readV x != s.readV y))

/-- JP V0, addr (R118): the sum is at most 0x10FE and needs no reduction. -/
def execJpV0Addr (nnn : Addr) (s : State) : Result :=
  .next (s.jump (addrOperand nnn + byteOperand (s.readV 0)))

end Sys2Proof.Machine
end

