-- ==== Sys2Proof/Machine/Display.lean ====
section
/-! DEFINITION. The display instructions (spec/42_display.md). -/

namespace Sys2Proof.Machine

/-- CLS (R163). -/
def execCls (s : State) : Result := .next s.fbClear.advance

/-- The buffer index of a sprite pixel before the reduction modulo 2048 (R162): the coordinates are
whole register values and the sums are plain integers. -/
def pixelIndex (x y row col : Nat) : Nat := x + col + (y + row) * fbWidth

/-- Whether column `col` of a sprite byte is set: bit 7 is column 0 (R162 (b), log 12). -/
def spriteBit (b : Byte) (col : Nat) : Bool := b.getLsbD (7 - col)

/-- One pixel of a sprite row (R162): a set bit toggles its cell, and VF becomes 1 when the cell was
set. A zero bit writes nothing. -/
def State.drawPixel (x y row : Nat) (b : Byte) (s : State) (col : Nat) : State :=
  if spriteBit b col then
    let k := pixelIndex x y row col
    if s.cell k then (s.fbToggle k).writeV vf 1 else s.fbToggle k
  else s

/-- The eight pixels of a sprite row, ascending (R162). -/
def State.drawRow (s : State) (x y row : Nat) (b : Byte) : State :=
  [0, 1, 2, 3, 4, 5, 6, 7].foldl (State.drawPixel x y row b) s

/-- The listed sprite rows, each row's byte read just before its pixels (R162): a row whose address
exceeds 0xFFF raises, and the rows before it stay drawn. -/
def State.drawRows (s : State) (x y : Nat) : List Nat → Access Unit
  | [] => .done () s
  | row :: rows =>
    match s.memRead (s.base + row) with
    | .done b t => (t.drawRow x y row b).drawRows x y rows
    | .raised t => .raised t

/-- DRW Vx, Vy, nibble (R162): the coordinates are read before VF is cleared. -/
def execDrw (x y : Reg) (n : Nibble) (s : State) : Result :=
  ((s.writeV vf 0).drawRows (s.readV x).toNat (s.readV y).toNat (List.range n.toNat)).finish

end Sys2Proof.Machine
end

