-- ==== Sys2Proof/Machine/IndexMem.lean ====
section
/-! DEFINITION. The index-register and memory instructions (spec/45_memory_index.md). No access
changes I (R193); accesses are made in ascending order and the ones before a fault persist (R197). -/

namespace Sys2Proof.Machine

/-- LD I, addr (R190). -/
def execLdIAddr (nnn : Addr) (s : State) : Result :=
  .next { s with i := addrOperand nnn }.advance

/-- ADD I, Vx (R191): modulo 65536, no flag. -/
def execAddIVx (x : Reg) (s : State) : Result :=
  .next { s with i := s.i + byteOperand (s.readV x) }.advance

/-- LD F, Vx (R192): 5 times the whole register value, no mask. -/
def execLdFVx (x : Reg) (s : State) : Result :=
  .next { s with i := 5 * byteOperand (s.readV x) }.advance

/-- LD B, Vx (R194). -/
def execLdBVx (x : Reg) (s : State) : Result :=
  (s.storeBytes s.base (bcdDigits (s.readV x))).finish

/-- LD [I], Vx (R195). -/
def execLdMemVx (x : Reg) (s : State) : Result :=
  (s.storeBytes s.base ((regsThrough x).map s.readV)).finish

/-- LD Vx, [I] (R196). -/
def execLdVxMem (x : Reg) (s : State) : Result :=
  (s.loadRegs s.base (regsThrough x)).finish

end Sys2Proof.Machine
end

