-- ==== Sys2Proof/Machine/Keyboard.lean ====
section
/-! DEFINITION. The keyboard instructions (spec/43_keyboard.md). -/

namespace Sys2Proof.Machine

/-- SKP Vx (R170). -/
def execSkp (x : Reg) (s : State) : Result :=
  .next (s.skipIf (s.keyPressed (s.readV x)))

/-- SKNP Vx (R171). -/
def execSknp (x : Reg) (s : State) : Result :=
  .next (s.skipIf (!s.keyPressed (s.readV x)))

/-- LD Vx, K (R172): the wait begins and pc stays; a later tick completes it (R173). -/
def execLdVxK (x : Reg) (s : State) : Result :=
  .next { s with mode := .waitKey x }

end Sys2Proof.Machine
end

