-- ==== Sys2Proof/Machine/Timers.lean ====
section
/-! DEFINITION. The timer instructions (spec/44_timers.md). -/

namespace Sys2Proof.Machine

/-- LD Vx, DT (R180). -/
def execLdVxDt (x : Reg) (s : State) : Result :=
  .next (s.writeV x s.dt).advance

/-- LD DT, Vx (R181). -/
def execLdDtVx (x : Reg) (s : State) : Result :=
  .next { s with dt := s.readV x }.advance

/-- LD ST, Vx (R182): the beeper is not touched. -/
def execLdStVx (x : Reg) (s : State) : Result :=
  .next { s with st := s.readV x }.advance

end Sys2Proof.Machine
end

