-- ==== Sys2Proof/Machine/Load.lean ====
section
/-! DEFINITION. Reset with a program image (spec/70_reset_and_hazards.md R250 to R254). -/

namespace Sys2Proof.Machine

/-- `Load(rom)` (R252) on the state of R43: the image is copied to 0x200 upward, the font being
memory's initial contents. An image over 3584 bytes raises InvalidRomSize before anything is
written, so that not even the font stands in memory (R253). -/
def State.load (s : State) (rom : List Byte) : State :=
  if romMax < rom.length then
    { s with mem := Memory.writeAll [] 0 (List.replicate font.length 0) }.raise .invalidRomSize 0
  else { s with mem := s.mem.writeAll progBase rom }

/-- The core right after reset with the image `rom` (R250). -/
def State.powerOn (rom : List Byte) : State := State.reset.load rom

end Sys2Proof.Machine
end

