-- ==== Sys2Proof/Machine/Tick.lean ====
section
/-! DEFINITION. The 60 Hz tick (spec/60_exceptions.md R225 to R229) and the key-wait it completes
(spec/43_keyboard.md R173, R176). -/

namespace Sys2Proof.Machine

/-- `DelayTick()` (R226). -/
def State.delayTick (s : State) : State :=
  if 0 < s.dt.toNat then { s with dt := s.dt - 1 } else s

/-- `SoundTick()` (R227): the beeper follows ST as the tick finds it, before the decrement; ST = 0
leaves the beeper as it is. Log 14. -/
def State.soundTick (s : State) : State :=
  { s with
    beepOut := if 1 < s.st.toNat then true else if s.st.toNat = 1 then false else s.beepOut
    st := if 0 < s.st.toNat then s.st - 1 else s.st }

/-- `DisplayTick()` (R228). -/
def State.displayTick (s : State) : State :=
  if s.dirty then { s with frameOut := s.fb, dirty := false } else s

/-- `InputTick()` (R229): the keys are sampled, then the quit request. -/
def State.inputTick (s : State) : State :=
  { s with keys := s.keyIn, isOn := if s.quitIn then false else s.isOn }

/-- The lowest pressed code the key-wait scans, 0 to 14 and never 15 (R173). -/
def firstPressed (keys : BitVec 16) : Option Nat :=
  (List.range keyWaitCodes).find? (fun k => keys.getLsbD k)

/-- `KeyWaitScan(x)` (R173): after a quit V[x] is a free byte (R176, log 3); otherwise the lowest
pressed code ends the wait, and without one the wait goes on. -/
def State.keyWaitScan (s : State) (x : Reg) : State :=
  if !s.isOn then
    { (s.writeV x (Config.brokenWait s.samples)).advance with mode := .off }
  else
    match firstPressed s.keys with
    | some k => { (s.writeV x (BitVec.ofNat 8 k)).advance with mode := .run }
    | none => s

/-- The four parts every tick does, in this order (R225). -/
def State.tickDevices (s : State) : State :=
  s.delayTick.soundTick.displayTick.inputTick

/-- `Tick60()` (R225); it is taken in modes RUN and WAIT_KEY only (R262). -/
def State.tick60 (s : State) : State :=
  let t := s.tickDevices
  match t.mode with
  | .waitKey x => t.keyWaitScan x
  | .run | .off | .faulted => if t.isOn then t else { t with mode := .off }

end Sys2Proof.Machine
end

