-- ==== Sys2Proof/Machine/Loop.lean ====
section
/-! DEFINITION. The CPU step (spec/30_encoding.md R80) and one iteration of the outer loop
(spec/70_reset_and_hazards.md R262). -/

namespace Sys2Proof.Machine

/-- `Step()` (R80): fetch, decode, execute. A fetch or decode error raises with pc unchanged. -/
def cpuStep (s : State) : Result :=
  match s.fetch with
  | .raised t => .next t
  | .done op t =>
    match decode op with
    | .ok i => exec i t
    | .error _ => .next (t.raise .unimplementedOpcode op.toNat)

/-- Whether the core is executing or waiting for a key, the modes the outer loop runs in (R262). -/
def State.active (s : State) : Bool :=
  match s.mode with
  | .run | .waitKey _ => true
  | .off | .faulted => false

/-- The elapsed time goes to both accumulators (R262). -/
def State.addTime (s : State) : State :=
  { s with cycleAcc := s.cycleAcc + s.deltaUs, timerAcc := s.timerAcc + s.deltaUs }

/-- `cycle_acc <- 0` (R262). -/
def State.clearCycle (s : State) : State := { s with cycleAcc := 0 }

/-- The CPU step where there is one: in WAIT_KEY no step is taken (R173, R262). -/
def stepIfRunning (s : State) : Result :=
  match s.mode with
  | .run => cpuStep s
  | .waitKey _ | .off | .faulted => .next s

/-- The cycle gate (R262); the idle of 10 microseconds changes nothing. -/
def cycleGate (s : State) : Result :=
  if cyclePeriodUs < s.cycleAcc then mapNext State.clearCycle (stepIfRunning s) else .next s

/-- The tick gate (R262), evaluated in every iteration in which the core still runs. -/
def State.tickGate (s : State) : State :=
  if s.active && decide (tickPeriodUs < s.timerAcc) then
    let t := s.tick60
    { t with timerAcc := t.timerAcc % tickPeriodUs }
  else s

/-- `Iteration(delta_us)` (R262); at its end every port shows its next free sample (log 1). -/
def iteration (s : State) : Result :=
  mapNext (fun t => t.tickGate.nextSamples) (cycleGate s.addTime)

/-- The outer loop's next action: it ends with OFF and with FAULTED, which nothing leaves (R261). -/
def outerLoop (s : State) : Result :=
  match s.mode with
  | .run | .waitKey _ => iteration s
  | .off => .fault .machineOff
  | .faulted => .fault (.machineFaulted s.fault)

/-- Where the placed word goes: pc when a word can be fetched there, else the load address. -/
def State.placeAddr (s : State) : Word :=
  if s.pc.toNat + 1 < memSize then s.pc else BitVec.ofNat 16 progBase

/-- The word `op` stored where the next step fetches, with what it takes for the very next iteration
to be one CPU step and no tick: a pc a word can be fetched at, the mode RUN and an elapsed time that
opens the cycle gate alone. -/
def State.placeWord (s : State) (op : Word) : State :=
  { s with
    pc := s.placeAddr
    mem := (s.mem.write s.placeAddr.toNat (highByte op)).write (s.placeAddr.toNat + 1) (lowByte op)
    mode := .run
    timerAcc := 0
    deltaUs := cyclePeriodUs + 1 }

end Sys2Proof.Machine
end

