-- ==== Sys2Proof/Machine/Step.lean ====
section
/-! DEFINITION. The machine's step: one iteration of the outer loop (spec/70_reset_and_hazards.md
R262), and the placing of an instruction where the step fetches. -/

namespace Sys2Proof.Machine

/-- One iteration of the outer loop, and no next state once the run has ended (R261, R262). -/
def step (s : State) : Host.Outcome State Fault Refusal := outerLoop s

/-- `s` with the table's word stored at pc and the next iteration due to run it (log 19). -/
def State.withFetchWord (s : State) (nbits w : Nat) : State := s.placeWord (tableWord nbits w)

end Sys2Proof.Machine
end

