-- ==== Sys2Proof/Safety.lean ====
section
/-! DEFINITION. The terms claims are stated in: the invariants of a run, which instruction writes
which piece of state (spec/10_state.md R21, R44), the pixels a sprite sets (spec/42_display.md R162),
and the part of the state that only tells the time and the inputs (spec/10_state.md R40, R45). -/

namespace Sys2Proof.Machine

/-! ### Invariants -/

/-- The run mode, the on/off flag and the fault record tell the same story (R37, R39, R42). -/
def State.ModeConsistent (s : State) : Prop :=
  (s.mode = .off ↔ s.isOn = false) ∧ (s.mode = .faulted ↔ s.fault.cause ≠ .none)

/-- The pc is at most 0x10FE, every stack slot at most 0x1000, and a key-wait stands at a fetchable
address, so that no pc arithmetic wraps (R27). -/
def State.PcInRange (s : State) : Prop :=
  s.pc.toNat ≤ 0x10FE ∧ (∀ k (h : k < 16), (s.stack[k]).toNat ≤ 0x1000) ∧
    (∀ x, s.mode = .waitKey x → s.pc.toNat ≤ 0xFFE)

/-- Between two iterations no gate is due while the core still runs (R262). -/
def State.GatesSettled (s : State) : Prop :=
  s.active = true → s.cycleAcc ≤ 1666 ∧ s.timerAcc ≤ 16666

/-- All of them, with memory in its canonical form. -/
def State.Inv (s : State) : Prop :=
  s.mem.wf ∧ s.ModeConsistent ∧ s.PcInRange ∧ s.GatesSettled

/-! ### Who writes what -/

/-- The registers an instruction may write: the "writes" column of R21. -/
def writesReg : Instr → Reg → Bool
  | .ldByte x _, r | .addByte x _, r | .rndByte x _, r => r == x
  | .ldReg x _, r | .orReg x _, r | .andReg x _, r | .xorReg x _, r => r == x
  | .addReg x _, r | .subReg x _, r | .subnReg x _, r => r == x || r == 15
  | .shr x _, r | .shl x _, r => r == x || r == 15
  | .drw _ _ _, r => r == 15
  | .ldVxDt x, r | .ldVxK x, r => r == x
  | .ldVxMem x, r => decide (r.val ≤ x.val)
  | .cls, _ | .ret, _ | .sysAddr _, _ | .jpAddr _, _ | .callAddr _, _ => false
  | .seByte _ _, _ | .sneByte _ _, _ | .seReg _ _, _ | .sneReg _ _, _ => false
  | .ldIAddr _, _ | .jpV0Addr _, _ | .skp _, _ | .sknp _, _ => false
  | .ldDtVx _, _ | .ldStVx _, _ | .addIVx _, _ | .ldFVx _, _ => false
  | .ldBVx _, _ | .ldMemVx _, _ => false

/-- The writers of I: ANNN, FX1E, FX29 (R28). -/
def writesI (i : Instr) : Prop :=
  (∃ nnn, i = .ldIAddr nnn) ∨ (∃ x, i = .addIVx x) ∨ (∃ x, i = .ldFVx x)

/-- The writers of the call stack: 2NNN and 00EE (R29). -/
def writesStack (i : Instr) : Prop := (∃ nnn, i = .callAddr nnn) ∨ i = .ret

/-- The writers of memory: FX33 and FX55 (R61). -/
def writesMem (i : Instr) : Prop := (∃ x, i = .ldBVx x) ∨ (∃ x, i = .ldMemVx x)

/-- The writers of the display buffer and its dirty flag: 00E0 and DXYN (R35, R36). -/
def writesFb (i : Instr) : Prop := i = .cls ∨ ∃ x y n, i = .drw x y n

/-! ### The pixels of a sprite -/

/-- Row `row` and column `col` of the sprite at I is a set bit whose byte lies in memory, for a
sprite of `n` rows (R162). -/
def State.SpritePixel (s : State) (n : Nibble) (row col : Nat) : Prop :=
  row < n.toNat ∧ col < 8 ∧ s.i.toNat + row ≤ 0xFFF ∧
    (s.mem.read (s.i.toNat + row)).getLsbD (7 - col) = true

/-- The cell such a pixel falls on, with the coordinates in V[x] and V[y] (R162). -/
def State.spriteCell (s : State) (x y : Reg) (row col : Nat) : Nat :=
  ((s.readV x).toNat + col + ((s.readV y).toNat + row) * 64) % 2048

/-- Cell `k` is one a set bit of the sprite falls on. -/
def State.SpriteHits (s : State) (x y : Reg) (n : Nibble) (k : Nat) : Prop :=
  ∃ row col, s.SpritePixel n row col ∧ s.spriteCell x y row col = k

/-- Some set bit of the sprite falls on a set cell: a collision (R162). -/
def State.SpriteCollides (s : State) (x y : Reg) (n : Nibble) : Prop :=
  ∃ k, s.SpriteHits x y n k ∧ s.cell k = true

/-! ### The state behind time and inputs -/

/-- `t` differs from `s` in the accumulators and the input ports alone: what an abstract scheduler
drops (R266). -/
def State.SameButForTime (s t : State) : Prop :=
  t = { s with
    cycleAcc := t.cycleAcc, timerAcc := t.timerAcc, deltaUs := t.deltaUs, keyIn := t.keyIn
    quitIn := t.quitIn, rndIn := t.rndIn, samples := t.samples }

end Sys2Proof.Machine
end

