-- ==== Sys2Proof/Certificates/Slice0/Obligations.lean ====
section
/-! DEFINITION. The statements for the provers. Each docstring names the rules of spec/ it formalises;
OBLIGATIONS.json lists them. A next state is described by its fields and, for the frame, by the
equation that it is the old state but for the fields named. -/

open Sys2Proof Sys2Proof.Machine

/-! ### Encoding -/

/-- 30_encoding.md R82, R83, R86: every well-formed instruction, with every operand at every value
its field admits, is what its own word decodes to. Strict matching is the spec's decision D3 (log
6). Most bit patterns are from general knowledge in the spec (log 20). -/
def Obligations.DecodeEncodeRoundTrip : Prop :=
  ∀ i : Instr, i.wf = true → decode (encode i) = .ok i

/-- 30_encoding.md R85, R86: a word that decodes is the word of what it decodes to, which is
well-formed and whose row's fixed bits the word has. Strict matching is the spec's decision D3 (log
6). Most bit patterns are from general knowledge in the spec (log 20). -/
def Obligations.DecodedWordIsItsEncoding : Prop :=
  ∀ (op : Word) (i : Instr), decode op = .ok i →
    encode i = op ∧ i.wf = true ∧ op &&& opcodeMask i = opcodeMatch i

/-- 30_encoding.md R88: the words that raise UnimplementedOpcode when executed are exactly the six
groups of the rule's table. The strictness and the fatal SYS are the spec's decisions D3 and D2 (log
6). Most bit patterns are from general knowledge in the spec (log 20). -/
def Obligations.UndecodableWordsAreTheSixGroups : Prop :=
  ∀ op : Word,
    ((∃ e, decode op = .error e) ∨ (∃ nnn, decode op = .ok (.sysAddr nnn))) ↔
      (majorField op = 0x0#4 ∧ nnnField op ≠ 0x0E0#12 ∧ nnnField op ≠ 0x0EE#12) ∨
      (majorField op = 0x5#4 ∧ nField op ≠ 0#4) ∨
      (majorField op = 0x8#4 ∧ nField op ∈ [0x8#4, 0x9#4, 0xA#4, 0xB#4, 0xC#4, 0xD#4, 0xF#4]) ∨
      (majorField op = 0x9#4 ∧ nField op ≠ 0#4) ∨
      (majorField op = 0xE#4 ∧ nnField op ∉ [0x9E#8, 0xA1#8]) ∨
      (majorField op = 0xF#4 ∧ nnField op ∉
        [0x07#8, 0x0A#8, 0x15#8, 0x18#8, 0x1E#8, 0x29#8, 0x33#8, 0x55#8, 0x65#8])

/-- 95_test_vectors.md 2.1: some words the spec writes out, one of each family, decode to the
instructions they stand for. That 0x5AB7 is undecodable is the spec's decision D3 (log 6). Most bit
patterns are from general knowledge in the spec (log 20). -/
def Obligations.SpecWordsDecode : Prop :=
  decode 0x00E0#16 = .ok .cls ∧ decode 0x1FFF#16 = .ok (.jpAddr 0xFFF) ∧
  decode 0x8AB5#16 = .ok (.subReg 0xA 0xB) ∧ decode 0xDABF#16 = .ok (.drw 0xA 0xB 15) ∧
  decode 0xE1A1#16 = .ok (.sknp 1) ∧ decode 0xF118#16 = .ok (.ldStVx 1) ∧
  decode 0xF155#16 = .ok (.ldMemVx 1) ∧
  decode 0x5AB7#16 = .error (.unimplementedOpcode 0x5AB7#16)

/-! ### The step and the outer loop -/

/-- 30_encoding.md R80, 70_reset_and_hazards.md R262: in mode RUN an iteration adds the elapsed time
to both accumulators; with the cycle gate open it takes one CPU step on that state, a fetch or
decode fault included, and then does `cycle_acc <- 0`, the tick gate, and the next samples of the
inputs; a word at pc that decodes makes that CPU step the instruction's meaning; with the cycle gate
closed no instruction runs. The loop is the spec's decision D17 (log 15), the samples in the state
are the model's choice (log 1). -/
def Obligations.StepRunsDecodedInstruction : Prop :=
  ∀ s u : State, s.mode = .run →
    u = { s with cycleAcc := s.cycleAcc + s.deltaUs, timerAcc := s.timerAcc + s.deltaUs } →
    (1666 < u.cycleAcc →
      step s = mapNext (fun t => ({ t with cycleAcc := 0 } : State).tickGate.nextSamples)
        (cpuStep u)) ∧
    (∀ i : Instr, 1666 < u.cycleAcc → s.pc.toNat ≤ 0xFFE →
      decode (s.mem.read s.pc.toNat ++ s.mem.read (s.pc.toNat + 1)) = .ok i →
      step s = mapNext (fun t => ({ t with cycleAcc := 0 } : State).tickGate.nextSamples)
        (exec i u)) ∧
    (u.cycleAcc ≤ 1666 → step s = .next u.tickGate.nextSamples)

/-- 43_keyboard.md R173, 70_reset_and_hazards.md R262: in WAIT_KEY no CPU step is taken; the gates
work on, and the ports get their next samples. The wait as a mode is the spec's decision D18 (log
16), the loop its decision D17 (log 15); the samples in the state are the model's choice (log 1). -/
def Obligations.WaitingCoreTakesNoCpuStep : Prop :=
  ∀ (s : State) (x : Reg), s.mode = .waitKey x →
    ∃ u, (u = s.addTime ∨ u = s.addTime.clearCycle) ∧
      (u.cycleAcc = if 1666 < s.cycleAcc + s.deltaUs then 0 else s.cycleAcc + s.deltaUs) ∧
      step s = .next u.tickGate.nextSamples

/-- 70_reset_and_hazards.md R261, R262: the outer loop has no iteration after OFF or FAULTED, and it
has one in RUN and in WAIT_KEY whatever the state. The end of a run is the spec's decision D27 and
step's faults are the model's form of it (log 7); the loop is the spec's decision D17 (log 15). -/
def Obligations.RunEndsExactlyInOffAndFaulted : Prop :=
  ∀ s : State,
    (s.mode = .off → step s = .fault .machineOff) ∧
    (s.mode = .faulted → step s = .fault (.machineFaulted s.fault)) ∧
    (s.mode = .run ∨ (∃ x, s.mode = .waitKey x) → ∃ t, step s = .next t)

/-- 70_reset_and_hazards.md section 3, the outer loop: but for the accumulators and the input ports, an
iteration is nothing, one CPU step, one tick, or a CPU step and then a tick; a step is taken in RUN
only, a tick in RUN and WAIT_KEY only. The step before the tick and at most one of each are the spec's
decision D17 (log 15); the ports in the state are the model's choice (log 1). -/
def Obligations.IterationIsAtMostStepThenTick : Prop :=
  ∀ s t : State, step s = .next t →
    ∃ a b c d : State, s.SameButForTime a ∧
      (b = a ∨ (a.mode = .run ∧ cpuStep a = .next b)) ∧
      b.SameButForTime c ∧
      (d = c ∨ (c.active = true ∧ d = c.tick60)) ∧
      d.SameButForTime t

/-- 20_memory.md sections 4 and 5, instruction fetch: it reads the two bytes at pc, the first being
the high byte, and raises InvalidAddress(pc + 1) when pc >= 0xFFF, with nothing decoded or executed
and pc kept. The fault record and the mode FAULTED are the spec's decision D6 (log 7). -/
def Obligations.FetchIsBigEndianAndBounded : Prop :=
  ∀ s : State,
    (s.pc.toNat ≤ 0xFFE → ∃ op : Word, s.fetch = .done op s ∧
      op.toNat = (s.mem.read s.pc.toNat).toNat * 256 + (s.mem.read (s.pc.toNat + 1)).toNat) ∧
    (0xFFF ≤ s.pc.toNat → ∃ t, cpuStep s = .next t ∧
      t.fault.cause = .invalidAddress ∧ t.fault.datum.toNat = s.pc.toNat + 1 ∧ t.mode = .faulted ∧
      t = { s with fault := t.fault, mode := t.mode })

/-- 60_exceptions.md section 1: a fetched word that is undecodable raises UnimplementedOpcode with
the word as datum, and the state is otherwise the state before the step. The datum, the fault record
and the mode FAULTED are the spec's decision D6 (log 7); which words are undecodable is its decision
D3 (log 6). -/
def Obligations.UndecodableWordRaises : Prop :=
  ∀ (s : State) (op : Word) (e : DecodeError), s.fetch = .done op s → decode op = .error e →
    ∃ t, cpuStep s = .next t ∧
      t.fault.cause = .unimplementedOpcode ∧ t.fault.datum.toNat = op.toNat ∧ t.mode = .faulted ∧
      t = { s with fault := t.fault, mode := t.mode }

/-- 30_encoding.md R86, 60_exceptions.md R214: no instruction is refused and none stops the model; a
fatal error is a next state. That form of a fatal error is the spec's decision D6 (log 7). -/
def Obligations.EveryInstructionAnswersNext : Prop :=
  ∀ (i : Instr) (s : State), ∃ t, exec i s = .next t

/-- 60_exceptions.md R214, R215: an instruction that raises leaves pc, I, SP, the stack, the timers
and the keys as they were. What raise does is the spec's decision D6 (log 7), what persists and the
pc its decisions D7 and D8 (log 8). -/
def Obligations.RaisingInstructionKeepsPc : Prop :=
  ∀ (i : Instr) (s t : State), s.mode ≠ .faulted → exec i s = .next t → t.mode = .faulted →
    t.pc = s.pc ∧ t.i = s.i ∧ t.sp = s.sp ∧ t.stack = s.stack ∧ t.dt = s.dt ∧ t.st = s.st ∧
      t.keys = s.keys ∧ t.isOn = s.isOn ∧ t.fault.cause ≠ .none

/-! ### Control flow -/

/-- 40_control_flow.md R112: JP lands on NNN and changes nothing else. -/
def Obligations.JumpLandsOnTarget : Prop :=
  ∀ (nnn : Addr) (s : State), ∃ t, exec (.jpAddr nnn) s = .next t ∧
    t.pc.toNat = nnn.toNat ∧ t = { s with pc := t.pc }

/-- 10_state.md section 5: Push with 16 slots in use raises StackOverflow(pc), else it writes slot
SP and SP grows by 1; Pop with none in use raises StackUnderflow(pc), else SP shrinks by 1 and the
answer is the slot it then names. That SP counts the used slots, the order of the moves and the
errors' names are the spec's decision D5, the fault record and the mode FAULTED its decision D6 (log
7). -/
def Obligations.PushAndPopAreBounded : Prop :=
  ∀ (s : State) (v : Word),
    (s.sp.val = 16 → s.push v = .raised
      { s with fault := ⟨.stackOverflow, s.pc.setWidth 17⟩, mode := .faulted }) ∧
    (∀ h : s.sp.val < 16, ∃ t, s.push v = .done () t ∧ t.sp.val = s.sp.val + 1 ∧
      t.stack[s.sp.val] = v ∧ (∀ k (hk : k < 16), k ≠ s.sp.val → t.stack[k] = s.stack[k]) ∧
      t = { s with stack := t.stack, sp := t.sp }) ∧
    (s.sp.val = 0 → s.pop = .raised
      { s with fault := ⟨.stackUnderflow, s.pc.setWidth 17⟩, mode := .faulted }) ∧
    (∀ k (hk : k < 16), s.sp.val = k + 1 → ∃ t, s.pop = .done s.stack[k] t ∧ t.sp.val = k ∧
      t = { s with sp := t.sp })

/-- 40_control_flow.md R113: CALL pushes pc + 2 and lands on NNN; with 16 slots in use it raises
StackOverflow with datum pc and changes nothing else. That the slot holds pc + 2 is the spec's
decision D5 (log 7). The fault record and the mode FAULTED are the spec's decision D6 (log 7). -/
def Obligations.CallPushesReturnAddress : Prop :=
  ∀ (nnn : Addr) (s : State),
    (∀ h : s.sp.val < 16, ∃ t, exec (.callAddr nnn) s = .next t ∧ t.pc.toNat = nnn.toNat ∧
      t.sp.val = s.sp.val + 1 ∧ t.stack[s.sp.val] = s.pc + 2 ∧
      (∀ k (hk : k < 16), k ≠ s.sp.val → t.stack[k] = s.stack[k]) ∧
      t = { s with pc := t.pc, stack := t.stack, sp := t.sp }) ∧
    (s.sp.val = 16 → exec (.callAddr nnn) s = .next
      { s with fault := ⟨.stackOverflow, s.pc.setWidth 17⟩, mode := .faulted })

/-- 40_control_flow.md section 2, RET: it takes the most recent slot as the pc, SP shrinks by 1 and
the slot keeps its contents; with no slot in use it raises StackUnderflow with datum pc and changes
nothing else. That SP counts the used slots and which slot is popped are the spec's decision D5, the
fault record and the mode FAULTED its decision D6 (log 7). -/
def Obligations.ReturnTakesTopSlot : Prop :=
  ∀ s : State,
    (∀ k (hk : k < 16), s.sp.val = k + 1 → ∃ t, exec .ret s = .next t ∧ t.pc = s.stack[k] ∧
      t.sp.val = k ∧ t = { s with pc := t.pc, sp := t.sp }) ∧
    (s.sp.val = 0 → exec .ret s = .next
      { s with fault := ⟨.stackUnderflow, s.pc.setWidth 17⟩, mode := .faulted })

/-- 40_control_flow.md R111, R113: a RET that follows a CALL with only the pc and registers changed
in between resumes at the instruction after the CALL, with SP as before it. The stack discipline and
the slot's contents are the spec's decision D5 (log 7). -/
def Obligations.CallThenReturnResumesAfterCall : Prop :=
  ∀ (nnn : Addr) (s t : State), s.sp.val < 16 → exec (.callAddr nnn) s = .next t →
    ∀ (v : Vector Byte 16) (pc : Word), ∃ u, exec .ret { t with v := v, pc := pc } = .next u ∧
      u.pc = s.pc + 2 ∧ u.sp = s.sp ∧ u.mode = s.mode ∧ u.v = v

/-- 40_control_flow.md R114, R115: SE and SNE with a byte skip by pc + 4 instead of pc + 2, on equality
and on difference. -/
def Obligations.ImmediateSkips : Prop :=
  ∀ (x : Reg) (nn : Byte) (s : State),
    (∃ t, exec (.seByte x nn) s = .next t ∧ (s.readV x = nn → t.pc = s.pc + 4) ∧
      (s.readV x ≠ nn → t.pc = s.pc + 2) ∧ t = { s with pc := t.pc }) ∧
    (∃ t, exec (.sneByte x nn) s = .next t ∧ (s.readV x ≠ nn → t.pc = s.pc + 4) ∧
      (s.readV x = nn → t.pc = s.pc + 2) ∧ t = { s with pc := t.pc })

/-- 40_control_flow.md R116, R117: SE and SNE with two registers skip on equality and on difference;
with X = Y the first always skips and the second never does. -/
def Obligations.RegisterSkips : Prop :=
  ∀ (x y : Reg) (s : State),
    (∃ t, exec (.seReg x y) s = .next t ∧
      (s.readV x = s.readV y → t.pc = s.pc + 4) ∧
      (s.readV x ≠ s.readV y → t.pc = s.pc + 2) ∧ (x = y → t.pc = s.pc + 4) ∧
      t = { s with pc := t.pc }) ∧
    (∃ t, exec (.sneReg x y) s = .next t ∧
      (s.readV x ≠ s.readV y → t.pc = s.pc + 4) ∧
      (s.readV x = s.readV y → t.pc = s.pc + 2) ∧ (x = y → t.pc = s.pc + 2) ∧
      t = { s with pc := t.pc })

/-- 40_control_flow.md section 2, JP V0, addr: the target is NNN plus V[0] as an unbounded sum, at most
0x10FE. That the register is V[0] is the spec's decision D29 (log 17). -/
def Obligations.JumpAddsRegisterZero : Prop :=
  ∀ (nnn : Addr) (s : State), ∃ t, exec (.jpV0Addr nnn) s = .next t ∧
    t.pc.toNat = nnn.toNat + (s.readV 0).toNat ∧ t.pc.toNat ≤ 0x10FE ∧ t = { s with pc := t.pc }

/-- 40_control_flow.md section 2, SYS addr: it always raises UnimplementedOpcode with its word as
datum and changes nothing else. The fatal meaning is the spec's decision D2 (log 6). The datum, the
fault record and the mode FAULTED are its decision D6 (log 7). -/
def Obligations.SysAlwaysRaises : Prop :=
  ∀ (nnn : Addr) (s : State), ∃ t, exec (.sysAddr nnn) s = .next t ∧
    t.fault.cause = .unimplementedOpcode ∧ t.fault.datum.toNat = (encode (.sysAddr nnn)).toNat ∧
    t.mode = .faulted ∧ t = { s with fault := t.fault, mode := t.mode }

/-! ### Load, arithmetic, logic, shift, random -/

/-- 41_arith_logic.md R130: LD Vx, byte. -/
def Obligations.LoadImmediateWritesByte : Prop :=
  ∀ (x : Reg) (nn : Byte) (s : State), ∃ t, exec (.ldByte x nn) s = .next t ∧
    t.readV x = nn ∧ (∀ r, r ≠ x → t.readV r = s.readV r) ∧ t.pc = s.pc + 2 ∧
    t = { s with v := t.v, pc := t.pc }

/-- 41_arith_logic.md section 2, ADD Vx, byte: the sum modulo 256, and VF is not written unless X is
15. VF unchanged is the spec's decision D25 (log 17). -/
def Obligations.AddImmediateWritesNoFlag : Prop :=
  ∀ (x : Reg) (nn : Byte) (s : State), ∃ t, exec (.addByte x nn) s = .next t ∧
    (t.readV x).toNat = ((s.readV x).toNat + nn.toNat) % 256 ∧
    (∀ r, r ≠ x → t.readV r = s.readV r) ∧ t.pc = s.pc + 2 ∧ t = { s with v := t.v, pc := t.pc }

/-- 41_arith_logic.md section 2, 8XY0 to 8XY3: copy, or, and, exclusive or into V[X], bit by bit; every
other register, VF included, is unchanged. VF unchanged is the spec's decision D25 (log 17). -/
def Obligations.CopyAndLogicWriteNoFlag : Prop :=
  ∀ (x y : Reg) (s : State),
    (∃ t, exec (.ldReg x y) s = .next t ∧ t.readV x = s.readV y ∧
      (∀ r, r ≠ x → t.readV r = s.readV r) ∧ t = { s with v := t.v, pc := s.pc + 2 }) ∧
    (∃ t, exec (.orReg x y) s = .next t ∧
      (∀ k, (t.readV x).getLsbD k = ((s.readV x).getLsbD k || (s.readV y).getLsbD k)) ∧
      (∀ r, r ≠ x → t.readV r = s.readV r) ∧ t = { s with v := t.v, pc := s.pc + 2 }) ∧
    (∃ t, exec (.andReg x y) s = .next t ∧
      (∀ k, (t.readV x).getLsbD k = ((s.readV x).getLsbD k && (s.readV y).getLsbD k)) ∧
      (∀ r, r ≠ x → t.readV r = s.readV r) ∧ t = { s with v := t.v, pc := s.pc + 2 }) ∧
    (∃ t, exec (.xorReg x y) s = .next t ∧
      (∀ k, (t.readV x).getLsbD k = ((s.readV x).getLsbD k ^^ (s.readV y).getLsbD k)) ∧
      (∀ r, r ≠ x → t.readV r = s.readV r) ∧ t = { s with v := t.v, pc := s.pc + 2 })

/-- 41_arith_logic.md section 2, ADD Vx, Vy: the sum modulo 256 and, last, VF = 1 exactly when the sum
exceeds 255; with X = 15 the sum is lost and VF is the flag. That the flag is written last is the
spec's decision D4 (log 10). -/
def Obligations.AddSetsCarryLast : Prop :=
  ∀ (x y : Reg) (s : State), ∃ t, exec (.addReg x y) s = .next t ∧
    (x ≠ 15 → (t.readV x).toNat = ((s.readV x).toNat + (s.readV y).toNat) % 256) ∧
    (t.readV 15).toNat = (if (s.readV x).toNat + (s.readV y).toNat > 255 then 1 else 0) ∧
    (∀ r, r ≠ x → r ≠ 15 → t.readV r = s.readV r) ∧ t.pc = s.pc + 2 ∧
    t = { s with v := t.v, pc := t.pc }

/-- 41_arith_logic.md section 2, SUB and SUBN: the difference modulo 256 and, last, VF = 1 exactly when
there is no borrow, equal operands included; with X = 15 the difference is lost and VF is the flag.
That the flag is written last is the spec's decision D4 (log 10). -/
def Obligations.SubtractionsSetNotBorrowLast : Prop :=
  ∀ (x y : Reg) (s : State),
    (∃ t, exec (.subReg x y) s = .next t ∧
      (x ≠ 15 → (t.readV x).toNat =
        if (s.readV x).toNat ≥ (s.readV y).toNat then (s.readV x).toNat - (s.readV y).toNat
        else 256 + (s.readV x).toNat - (s.readV y).toNat) ∧
      (t.readV 15).toNat = (if (s.readV x).toNat ≥ (s.readV y).toNat then 1 else 0) ∧
      (∀ r, r ≠ x → r ≠ 15 → t.readV r = s.readV r) ∧ t.pc = s.pc + 2 ∧
      t = { s with v := t.v, pc := t.pc }) ∧
    (∃ t, exec (.subnReg x y) s = .next t ∧
      (x ≠ 15 → (t.readV x).toNat =
        if (s.readV x).toNat ≤ (s.readV y).toNat then (s.readV y).toNat - (s.readV x).toNat
        else 256 + (s.readV y).toNat - (s.readV x).toNat) ∧
      (t.readV 15).toNat = (if (s.readV x).toNat ≤ (s.readV y).toNat then 1 else 0) ∧
      (∀ r, r ≠ x → r ≠ 15 → t.readV r = s.readV r) ∧ t.pc = s.pc + 2 ∧
      t = { s with v := t.v, pc := t.pc })

/-- 41_arith_logic.md section 2, SHR and SHL: SHR halves and SHL doubles V[X] modulo 256; both report
bit 0 of the value before the shift in VF, last; Y plays no part. That the flag is written last is the
spec's decision D4 (log 10), that Y is ignored its decision D28 (log 17). -/
def Obligations.ShiftsReportBitZeroLast : Prop :=
  ∀ (x y : Reg) (s : State),
    (∃ t, exec (.shr x y) s = .next t ∧
      (x ≠ 15 → (t.readV x).toNat = (s.readV x).toNat / 2) ∧
      (t.readV 15).toNat = (s.readV x).toNat % 2 ∧
      (∀ r, r ≠ x → r ≠ 15 → t.readV r = s.readV r) ∧ t.pc = s.pc + 2 ∧
      t = { s with v := t.v, pc := t.pc }) ∧
    (∃ t, exec (.shl x y) s = .next t ∧
      (x ≠ 15 → (t.readV x).toNat = 2 * (s.readV x).toNat % 256) ∧
      (t.readV 15).toNat = (s.readV x).toNat % 2 ∧
      (∀ r, r ≠ x → r ≠ 15 → t.readV r = s.readV r) ∧ t.pc = s.pc + 2 ∧
      t = { s with v := t.v, pc := t.pc })

/-- 41_arith_logic.md section 2, RND: V[X] is the sample of rnd_in masked with NN, one sample is
used, and VF is not written unless X is 15. A free sample is the spec's decision D20, holding it in
the state the model's choice (log 1); VF unchanged is the spec's decision D25 (log 17). -/
def Obligations.RandomMasksOneSample : Prop :=
  ∀ (x : Reg) (nn : Byte) (s : State), ∃ t, exec (.rndByte x nn) s = .next t ∧
    t.readV x = s.rndIn &&& nn ∧ t.readV x &&& ~~~nn = 0 ∧
    (∀ r, r ≠ x → t.readV r = s.readV r) ∧ t.pc = s.pc + 2 ∧ t.samples = s.samples + 1 ∧
    t = { s with v := t.v, pc := t.pc, rndIn := t.rndIn, samples := t.samples }

/-! ### Display -/

/-- 42_display.md R160, R163: CLS clears every cell, sets dirty and changes nothing else. -/
def Obligations.ClearScreenSetsDirty : Prop :=
  ∀ s : State, ∃ t, exec .cls s = .next t ∧ (∀ k, t.cell k = false) ∧ t.dirty = true ∧
    t.pc = s.pc + 2 ∧ t = { s with fb := t.fb, dirty := t.dirty, pc := t.pc }

/-- 42_display.md section 2, DRW, whose bytes all lie in memory: exactly the cells the sprite's set
bits fall on are toggled, VF is 1 on a collision and else 0, dirty becomes 1 when a bit is set, and
nothing else changes. The details are the spec's decision D13 (log 12); that V[X] and V[Y] are read
before VF is cleared is its decision D4 (log 10). -/
def Obligations.DrawTogglesTheSpritesCells : Prop :=
  ∀ (x y : Reg) (n : Nibble) (s : State), n.toNat = 0 ∨ s.i.toNat + n.toNat ≤ 0x1000 →
    ∃ t, exec (.drw x y n) s = .next t ∧
      (∀ k, k < 2048 → (t.cell k ≠ s.cell k ↔ s.SpriteHits x y n k)) ∧
      (s.SpriteCollides x y n → t.readV 15 = 1) ∧ (¬ s.SpriteCollides x y n → t.readV 15 = 0) ∧
      (t.dirty = true ↔ s.dirty = true ∨ ∃ row col, s.SpritePixel n row col) ∧
      (∀ r, r ≠ 15 → t.readV r = s.readV r) ∧ t.pc = s.pc + 2 ∧
      t = { s with v := t.v, pc := t.pc, fb := t.fb, dirty := t.dirty }

/-- 42_display.md section 2 and 60_exceptions.md section 1: a DRW that runs past 0xFFF raises
InvalidAddress at the first such address, with the rows before it drawn, VF written, dirty set when
one of them has a set bit, and pc kept. That they persist is the spec's decision D7 (log 8). The
details of DRW are its decision D13 (log 12), the reads before VF is cleared D4 (log 10), the fault
record and the mode FAULTED D6 (log 7), the unbounded address D9 (log 11). -/
def Obligations.DrawPastMemoryRaises : Prop :=
  ∀ (x y : Reg) (n : Nibble) (s : State), n.toNat ≠ 0 → 0x1000 < s.i.toNat + n.toNat →
    ∃ t, exec (.drw x y n) s = .next t ∧
      t.fault.cause = .invalidAddress ∧ t.fault.datum.toNat = max s.i.toNat 0x1000 ∧
      t.mode = .faulted ∧
      (∀ k, k < 2048 → (t.cell k ≠ s.cell k ↔ s.SpriteHits x y n k)) ∧
      (s.SpriteCollides x y n → t.readV 15 = 1) ∧ (¬ s.SpriteCollides x y n → t.readV 15 = 0) ∧
      (t.dirty = true ↔ s.dirty = true ∨ ∃ row col, s.SpritePixel n row col) ∧
      (∀ r, r ≠ 15 → t.readV r = s.readV r) ∧
      t = { s with v := t.v, fb := t.fb, dirty := t.dirty, fault := t.fault, mode := t.mode }

/-- 42_display.md section 2, the double-draw law: a sprite drawn twice with the same V[X] and V[Y]
(a condition only where X or Y is 15) leaves the buffer as it was, and the second draw collides
exactly when some cell of the sprite was clear before the first. The details of DRW are the spec's
decision D13 (log 12), the reads before VF is cleared its decision D4 (log 10). -/
def Obligations.DrawingTwiceRestoresTheBuffer : Prop :=
  ∀ (x y : Reg) (n : Nibble) (s t u : State), n.toNat = 0 ∨ s.i.toNat + n.toNat ≤ 0x1000 →
    exec (.drw x y n) s = .next t → t.readV x = s.readV x → t.readV y = s.readV y →
    exec (.drw x y n) t = .next u →
    u.fb = s.fb ∧
      (u.readV 15 = 1 ↔ ∃ k, s.SpriteHits x y n k ∧ s.cell k = false) ∧
      (u.readV 15 = 0 ∨ u.readV 15 = 1)

/-! ### Keyboard -/

/-- 43_keyboard.md section 2, SKP and SKNP: for a code up to 15 the latch decides; for a code above
15 the open parameter KEY_OOR does, whatever it is (log 4). Leaving the parameter open is the spec's
decision D12. -/
def Obligations.KeyTestsReadTheLatch : Prop :=
  ∀ (x : Reg) (s : State) (p : Bool),
    ((s.readV x).toNat ≤ 15 ∧ p = s.keys.getLsbD (s.readV x).toNat) ∨
      (15 < (s.readV x).toNat ∧ p = Config.keyOor (s.readV x)) →
    (∃ t, exec (.skp x) s = .next t ∧ t.pc = (if p then s.pc + 4 else s.pc + 2) ∧
      t = { s with pc := t.pc }) ∧
    (∃ t, exec (.sknp x) s = .next t ∧ t.pc = (if p then s.pc + 2 else s.pc + 4) ∧
      t = { s with pc := t.pc })

/-- 43_keyboard.md section 2, LD Vx, K: the mode becomes WAIT_KEY(X), pc is not advanced and no
register changes. The wait mode is the spec's decision D18 (log 16). -/
def Obligations.KeyWaitBeginsWithPcKept : Prop :=
  ∀ (x : Reg) (s : State), ∃ t, exec (.ldVxK x) s = .next t ∧ t.mode = .waitKey x ∧
    t = { s with mode := t.mode }

/-- 43_keyboard.md sections 1 and 2, the scan at the end of a tick that samples no quit: with none
of keys 0 to 14 down the wait goes on, key 15 notwithstanding; else the lowest of them ends it. The
wait as a mode and the scan at a tick's end are the spec's decision D18 (log 16). -/
def Obligations.KeyWaitTakesLowestKey : Prop :=
  ∀ (x : Reg) (s : State), s.mode = .waitKey x → s.isOn = true → s.quitIn = false →
    ((∀ k, k ≤ 14 → s.keyIn.getLsbD k = false) →
      s.tick60.mode = .waitKey x ∧ s.tick60.pc = s.pc ∧ s.tick60.v = s.v) ∧
    (∀ k, k ≤ 14 → s.keyIn.getLsbD k = true → (∀ j, j < k → s.keyIn.getLsbD j = false) →
      (s.tick60.readV x).toNat = k ∧ (∀ r, r ≠ x → s.tick60.readV r = s.readV r) ∧
      s.tick60.pc = s.pc + 2 ∧ s.tick60.mode = .run)

/-- 43_keyboard.md section 2, shutdown during a wait: the mode becomes OFF even if a key is down at
that tick, no register but V[x] changes, and of V[x] nothing is said (log 3). What a broken wait
leaves is the spec's decision D19 (log 3), the wait as a mode its decision D18 (log 16). -/
def Obligations.QuitBreaksTheKeyWait : Prop :=
  ∀ (x : Reg) (s : State), s.mode = .waitKey x → s.quitIn = true →
    s.tick60.mode = .off ∧ s.tick60.isOn = false ∧ s.tick60.keys = s.keyIn ∧
      (∀ r, r ≠ x → s.tick60.readV r = s.readV r) ∧
      s.tick60.mem = s.mem ∧ s.tick60.fault = s.fault

/-! ### Timers and the tick -/

/-- 44_timers.md, LD Vx, DT, LD DT, Vx and LD ST, Vx: the three moves between a register and a
timer; the beeper is not touched. -/
def Obligations.TimerInstructionsMoveBytes : Prop :=
  ∀ (x : Reg) (s : State),
    (∃ t, exec (.ldVxDt x) s = .next t ∧ t.readV x = s.dt ∧ (∀ r, r ≠ x → t.readV r = s.readV r) ∧
      t.pc = s.pc + 2 ∧ t = { s with v := t.v, pc := t.pc }) ∧
    (∃ t, exec (.ldDtVx x) s = .next t ∧ t.dt = s.readV x ∧ t.pc = s.pc + 2 ∧
      t = { s with dt := t.dt, pc := t.pc }) ∧
    (∃ t, exec (.ldStVx x) s = .next t ∧ t.st = s.readV x ∧ t.pc = s.pc + 2 ∧
      t = { s with st := t.st, pc := t.pc })

/-- 60_exceptions.md R226: a tick takes 1 from DT and never goes below 0. -/
def Obligations.DelayTimerFloorsAtZero : Prop :=
  ∀ s : State, s.tick60.dt.toNat = s.dt.toNat - 1

/-- 60_exceptions.md section 3, SoundTick: the beeper goes on at a tick that finds ST above 1, off at
one that finds 1, and is left alone at 0; ST counts down to 0. The test before the decrement is the
spec's decision D16 (log 14). -/
def Obligations.BeeperFollowsSoundTimer : Prop :=
  ∀ s : State, s.tick60.st.toNat = s.st.toNat - 1 ∧
    (1 < s.st.toNat → s.tick60.beepOut = true) ∧ (s.st.toNat = 1 → s.tick60.beepOut = false) ∧
    (s.st.toNat = 0 → s.tick60.beepOut = s.beepOut)

/-- 60_exceptions.md R228: a tick with dirty set shows the buffer and clears the flag; without it the
frame stays; the cells never change. -/
def Obligations.TickShowsDirtyFrame : Prop :=
  ∀ s : State, s.tick60.dirty = false ∧ s.tick60.fb = s.fb ∧
    (s.dirty = true → s.tick60.frameOut = s.fb) ∧
    (s.dirty = false → s.tick60.frameOut = s.frameOut)

/-- 60_exceptions.md R229: a tick samples all 16 keys and the quit request, and never sets is_on. -/
def Obligations.TickSamplesKeysAndQuit : Prop :=
  ∀ s : State, (∀ k, k ≤ 15 → s.tick60.keys.getLsbD k = s.keyIn.getLsbD k) ∧
    (s.quitIn = true → s.tick60.isOn = false) ∧ (s.quitIn = false → s.tick60.isOn = s.isOn)

/-- 60_exceptions.md sections 2 and 3: a tick never touches memory, I, the stack, the buffer, the
fault record or the accumulators, and in RUN neither a register nor the pc; in RUN it ends the run
exactly when the core is off after it. The order of a tick's parts is the spec's decision D16 (log
14). -/
def Obligations.TickLeavesProgramState : Prop :=
  ∀ s : State, s.tick60.mem = s.mem ∧ s.tick60.i = s.i ∧ s.tick60.stack = s.stack ∧
    s.tick60.sp = s.sp ∧ s.tick60.fb = s.fb ∧ s.tick60.fault = s.fault ∧
    s.tick60.cycleAcc = s.cycleAcc ∧ s.tick60.timerAcc = s.timerAcc ∧
    (s.mode = .run → s.tick60.v = s.v ∧ s.tick60.pc = s.pc ∧
      s.tick60.mode = if s.tick60.isOn then .run else .off)

/-! ### Index register and memory -/

/-- 45_memory_index.md section 2, ANNN, FX1E, FX29: I becomes NNN, I + V[X] modulo 65536, 5 * V[X];
no register changes. Wrapping and no masking are the spec's decisions D10 and D11 (log 11). -/
def Obligations.IndexInstructionsWriteI : Prop :=
  ∀ (x : Reg) (nnn : Addr) (s : State),
    (∃ t, exec (.ldIAddr nnn) s = .next t ∧ t.i.toNat = nnn.toNat ∧ t.pc = s.pc + 2 ∧
      t = { s with i := t.i, pc := t.pc }) ∧
    (∃ t, exec (.addIVx x) s = .next t ∧ t.i.toNat = (s.i.toNat + (s.readV x).toNat) % 65536 ∧
      t.pc = s.pc + 2 ∧ t = { s with i := t.i, pc := t.pc }) ∧
    (∃ t, exec (.ldFVx x) s = .next t ∧ t.i.toNat = 5 * (s.readV x).toNat ∧ t.pc = s.pc + 2 ∧
      t = { s with i := t.i, pc := t.pc })

/-- 45_memory_index.md section 2, LD B, Vx: FX33 stores the hundreds, tens and ones digit at I, I +
1, I + 2, every other byte of memory reading as before; where I + 2 exceeds 0xFFF it raises
InvalidAddress at the first bad address with the earlier digits stored. That they persist is the
spec's decision D7 (log 8). The fault record and the mode FAULTED are its decision D6 (log 7), the
unbounded address its decision D9 (log 11). -/
def Obligations.BcdStoresThreeDigits : Prop :=
  ∀ (x : Reg) (s : State),
    (s.i.toNat + 2 ≤ 0xFFF → ∃ t, exec (.ldBVx x) s = .next t ∧
      (t.mem.read s.i.toNat).toNat = (s.readV x).toNat / 100 ∧
      (t.mem.read (s.i.toNat + 1)).toNat = (s.readV x).toNat / 10 % 10 ∧
      (t.mem.read (s.i.toNat + 2)).toNat = (s.readV x).toNat % 10 ∧
      (∀ a, a < s.i.toNat ∨ s.i.toNat + 2 < a → t.mem.read a = s.mem.read a) ∧
      t.pc = s.pc + 2 ∧ t = { s with mem := t.mem, pc := t.pc }) ∧
    (0xFFF < s.i.toNat + 2 → ∃ t, exec (.ldBVx x) s = .next t ∧
      t.fault.cause = .invalidAddress ∧ t.fault.datum.toNat = max s.i.toNat 0x1000 ∧
      t.mode = .faulted ∧
      (s.i.toNat ≤ 0xFFF → (t.mem.read s.i.toNat).toNat = (s.readV x).toNat / 100) ∧
      (s.i.toNat + 1 ≤ 0xFFF →
        (t.mem.read (s.i.toNat + 1)).toNat = (s.readV x).toNat / 10 % 10) ∧
      (∀ a, a < s.i.toNat ∨ 0xFFF < a → t.mem.read a = s.mem.read a) ∧
      t = { s with mem := t.mem, fault := t.fault, mode := t.mode })

/-- 45_memory_index.md section 2, LD [I], Vx: V[0] to V[X] are stored at I upward, every other byte
of memory reading as before and I unchanged; where I + X exceeds 0xFFF it raises InvalidAddress at
the first bad address with the registers before it stored. That they persist is the spec's decision
D7 (log 8). The fault record and the mode FAULTED are its decision D6 (log 7), the unbounded address
its decision D9 (log 11). -/
def Obligations.BlockStoreCopiesRegisters : Prop :=
  ∀ (x : Reg) (s : State),
    (s.i.toNat + x.val ≤ 0xFFF → ∃ t, exec (.ldMemVx x) s = .next t ∧
      (∀ r : Reg, r.val ≤ x.val → t.mem.read (s.i.toNat + r.val) = s.readV r) ∧
      (∀ a, a < s.i.toNat ∨ s.i.toNat + x.val < a → t.mem.read a = s.mem.read a) ∧
      t.pc = s.pc + 2 ∧ t = { s with mem := t.mem, pc := t.pc }) ∧
    (0xFFF < s.i.toNat + x.val → ∃ t, exec (.ldMemVx x) s = .next t ∧
      t.fault.cause = .invalidAddress ∧ t.fault.datum.toNat = max s.i.toNat 0x1000 ∧
      t.mode = .faulted ∧
      (∀ r : Reg, r.val ≤ x.val → s.i.toNat + r.val ≤ 0xFFF →
        t.mem.read (s.i.toNat + r.val) = s.readV r) ∧
      (∀ a, a < s.i.toNat ∨ 0xFFF < a → t.mem.read a = s.mem.read a) ∧
      t = { s with mem := t.mem, fault := t.fault, mode := t.mode })

/-- 45_memory_index.md section 2, LD Vx, [I]: V[0] to V[X] are loaded from I upward, the registers
above X, memory and I unchanged; where I + X exceeds 0xFFF it raises InvalidAddress at the first bad
address with the registers before it loaded. That they persist is the spec's decision D7 (log 8).
The fault record and the mode FAULTED are its decision D6 (log 7), the unbounded address its
decision D9 (log 11). -/
def Obligations.BlockLoadCopiesMemory : Prop :=
  ∀ (x : Reg) (s : State),
    (s.i.toNat + x.val ≤ 0xFFF → ∃ t, exec (.ldVxMem x) s = .next t ∧
      (∀ r : Reg, r.val ≤ x.val → t.readV r = s.mem.read (s.i.toNat + r.val)) ∧
      (∀ r : Reg, x.val < r.val → t.readV r = s.readV r) ∧
      t.pc = s.pc + 2 ∧ t = { s with v := t.v, pc := t.pc }) ∧
    (0xFFF < s.i.toNat + x.val → ∃ t, exec (.ldVxMem x) s = .next t ∧
      t.fault.cause = .invalidAddress ∧ t.fault.datum.toNat = max s.i.toNat 0x1000 ∧
      t.mode = .faulted ∧
      (∀ r : Reg, r.val ≤ x.val → s.i.toNat + r.val ≤ 0xFFF →
        t.readV r = s.mem.read (s.i.toNat + r.val)) ∧
      (∀ r : Reg, x.val < r.val ∨ 0xFFF < s.i.toNat + r.val → t.readV r = s.readV r) ∧
      t = { s with v := t.v, fault := t.fault, mode := t.mode })

/-! ### Which instruction writes what -/

/-- 10_state.md sections 1 and 2: a register that the table of writers does not give an instruction
is unchanged by it; so only the six flag instructions write VF other than as a named destination.
That no other instruction changes VF is the spec's decision D25 (log 17). -/
def Obligations.RegistersChangeOnlyByTheirWriters : Prop :=
  ∀ (i : Instr) (s t : State), exec i s = .next t →
    ∀ r : Reg, writesReg i r = false → t.readV r = s.readV r

/-- 10_state.md section 10: I, the stack, memory, the display buffer and the timers change only by
their own instructions, and no instruction touches the keys, the on/off flag, the accumulators, the
output latches or the inputs of the tick and the loop. The inputs in the state are the model's
choice (log 1). -/
def Obligations.StateChangesOnlyByItsInstructions : Prop :=
  ∀ (i : Instr) (s t : State), exec i s = .next t →
    (¬ writesI i → t.i = s.i) ∧
    (¬ writesStack i → t.stack = s.stack ∧ t.sp = s.sp) ∧
    (¬ writesMem i → t.mem = s.mem) ∧
    (¬ writesFb i → t.fb = s.fb ∧ t.dirty = s.dirty) ∧
    ((∀ x, i ≠ .ldDtVx x) → t.dt = s.dt) ∧ ((∀ x, i ≠ .ldStVx x) → t.st = s.st) ∧
    t.keys = s.keys ∧ t.isOn = s.isOn ∧ t.cycleAcc = s.cycleAcc ∧ t.timerAcc = s.timerAcc ∧
    t.beepOut = s.beepOut ∧ t.frameOut = s.frameOut ∧ t.deltaUs = s.deltaUs ∧
    t.keyIn = s.keyIn ∧ t.quitIn = s.quitIn

/-- 00_scope.md section 5, 10_state.md section 8: between two ticks the levels on key_in and quit_in
have no effect: an iteration in which no tick is due gives the same outcome whatever they are. When
a tick is due is the spec's decision D17 (log 15); the levels in the state are the model's choice
(log 1). -/
def Obligations.KeyAndQuitPortsUnseenBetweenTicks : Prop :=
  ∀ (s : State) (k : BitVec 16) (q : Bool), s.timerAcc + s.deltaUs ≤ 16666 →
    (s.mode = .run ∨ ∃ x, s.mode = .waitKey x) →
    step { s with keyIn := k, quitIn := q } = step s

/-! ### Memory -/

/-- 20_memory.md section 7: a read gives the most recent write to its address, else what it gave
before. That each access is immediate is the spec's decision D26; the list form is the model's
choice (log 18). -/
def Obligations.MemoryReadsTheLatestWrite : Prop :=
  ∀ (m : Memory) (a b : Nat) (v : Byte),
    (Memory.write m a v).read a = v ∧ (b ≠ a → (Memory.write m a v).read b = m.read b)

/-- 20_memory.md sections 3 and 4: a byte access up to 0xFFF completes and one above raises
InvalidAddress with the address as datum; a read changes nothing and a write changes the one byte.
The fault record and the mode FAULTED are the spec's decision D6 (log 7), the unbounded address its
decision D9 (log 11). -/
def Obligations.ByteAccessesAreRangeChecked : Prop :=
  ∀ (s : State) (a : Nat) (v : Byte),
    (a ≤ 0xFFF → s.memRead a = .done (s.mem.read a) s ∧
      ∃ t, s.memWrite a v = .done () t ∧ t.mem.read a = v ∧
        (∀ b, b ≠ a → t.mem.read b = s.mem.read b) ∧ t = { s with mem := t.mem }) ∧
    (0xFFF < a → a < 2 ^ 17 → ∃ t, s.memRead a = .raised t ∧ s.memWrite a v = .raised t ∧
      t.fault.cause = .invalidAddress ∧ t.fault.datum.toNat = a ∧ t.mode = .faulted ∧
      t = { s with fault := t.fault, mode := t.mode })

/-- The model's own (log 18): memories in canonical form that read alike are the same list, so that
comparing two states compares their memories. -/
def Obligations.CanonicalMemoriesReadingAlikeAreEqual : Prop :=
  ∀ m₁ m₂ : Memory, m₁.wf → m₂.wf → (∀ a, m₁.read a = m₂.read a) → m₁ = m₂

/-! ### Reset and load -/

/-- 10_state.md section 9: the state after reset with the empty image. I, SP, the stack, dirty,
keys, the accumulators, the outputs and the fault record are the spec's decision D14 (log 9). The
font's bytes are the constant of the spec's decision D22 (log 5). -/
def Obligations.ResetStateIsAsListed : Prop :=
  (∀ r, State.reset.readV r = 0) ∧ State.reset.pc = 0x200 ∧ State.reset.i = 0 ∧
  State.reset.sp.val = 0 ∧ (∀ k (h : k < 16), State.reset.stack[k] = 0) ∧
  State.reset.dt = 0 ∧ State.reset.st = 0 ∧ (∀ k, State.reset.cell k = false) ∧
  State.reset.dirty = false ∧ State.reset.isOn = true ∧ State.reset.keys = 0 ∧
  State.reset.mode = .run ∧ State.reset.cycleAcc = 0 ∧ State.reset.timerAcc = 0 ∧
  State.reset.beepOut = false ∧ State.reset.frameOut = Vector.replicate 32 0 ∧
  State.reset.fault = ⟨.none, 0⟩ ∧
  (∀ a, 0x50 ≤ a → State.reset.mem.read a = 0) ∧
  (∀ (d k : Nat), d < 16 → k < 5 → some (State.reset.mem.read (5 * d + k)) = font[5 * d + k]?)

/-- 20_memory.md section 6, 70_reset_and_hazards.md section 1: an image of at most 3584 bytes stands
at 0x200 upward, byte j at 0x200 + j, with the font below and zero elsewhere, and the core runs; a
longer one leaves fault (5, 0), mode FAULTED, memory all zero and no step ever. That exactly 3584
bytes are accepted is the spec's decision D15 (log 13); the code 5 and the datum are its decision D6
(log 7), the other reset values D14 (log 9). -/
def Obligations.LoadPlacesOrRejectsTheImage : Prop :=
  ∀ rom : List Byte,
    (rom.length ≤ 3584 →
      (∀ j (h : j < rom.length), (State.powerOn rom).mem.read (0x200 + j) = rom[j]) ∧
      (∀ a, a < 0x200 ∨ 0x200 + rom.length ≤ a →
        (State.powerOn rom).mem.read a = State.reset.mem.read a) ∧
      State.powerOn rom = { State.reset with mem := (State.powerOn rom).mem }) ∧
    (3584 < rom.length →
      (State.powerOn rom).fault.cause.code = 5 ∧ (State.powerOn rom).fault.datum = 0 ∧
      (State.powerOn rom).mode = .faulted ∧ (∀ a, (State.powerOn rom).mem.read a = 0) ∧
      ∀ t, step (State.powerOn rom) ≠ .next t)

/-! ### Invariants -/

/-- 20_memory.md R50 with the model's canonical form (log 18): every step keeps memory canonical and
inside 0x000 to 0xFFF. -/
def Obligations.StepKeepsMemoryCanonical : Prop :=
  ∀ s t : State, s.mem.wf → step s = .next t → t.mem.wf

/-- 10_state.md section 3: every step keeps the pc at most 0x10FE, the stack slots at most 0x1000
and a waiting core's pc fetchable, so that no pc arithmetic ever wraps. That a slot holds the CALL's
address plus 2 is the spec's decision D5 (log 7), the net pc its decision D8 (log 8), the target of
JP V0 D29 (log 17), the wait with pc kept D18 (log 16). -/
def Obligations.StepKeepsPcInRange : Prop :=
  ∀ s t : State, s.PcInRange → step s = .next t → t.PcInRange

/-- 10_state.md section 8: every step keeps mode OFF exactly when is_on is 0, and mode FAULTED
exactly when the fault record holds a cause. The modes and the fault record are the spec's decisions
D18 (log 16), D6 and D27 (log 7). -/
def Obligations.StepKeepsModeConsistent : Prop :=
  ∀ s t : State, s.ModeConsistent → step s = .next t → t.ModeConsistent

/-- 70_reset_and_hazards.md section 3: after an iteration that leaves the core running, neither
accumulator exceeds its period. The exact outer loop is the spec's decision D17 (log 15). -/
def Obligations.StepSettlesTheGates : Prop :=
  ∀ s t : State, step s = .next t → t.GatesSettled

/-- 10_state.md section 9, 70_reset_and_hazards.md section 1: the invariants hold after reset, and
after power-on with every image that is accepted or not. The canonical form of memory is the model's
choice (log 18); that the stack and the accumulators are 0, the mode RUN and the fault record empty
is the spec's decision D14 (log 9). The limit of the image is its decision D15 (log 13), a rejected
image's fault record and mode D6 (log 7). -/
def Obligations.PowerOnMeetsTheInvariants : Prop :=
  State.reset.Inv ∧ ∀ rom : List Byte, (State.powerOn rom).Inv

/-! ### The tick gate -/

/-- 70_reset_and_hazards.md section 3, the tick gate: in RUN or WAIT_KEY with more than 16666
microseconds towards the tick, exactly one tick is taken and timer_acc is reduced modulo 16666;
otherwise nothing changes, so in particular not after a CPU step that faulted. The strict comparison
and the single tick are the spec's decision D17 (log 15). -/
def Obligations.TickGateTakesOneTickWhenDue : Prop :=
  ∀ s : State,
    ((s.mode = .run ∨ ∃ x, s.mode = .waitKey x) → 16666 < s.timerAcc →
      s.tickGate = { s.tick60 with timerAcc := s.timerAcc % 16666 }) ∧
    (s.mode = .off ∨ s.mode = .faulted ∨ s.timerAcc ≤ 16666 → s.tickGate = s)
end

