-- ==== Sys2Proof/Laws/Decode.lean ====
section
/-! SUPPORT. The fields of the words the encoder writes, and the words the decoder reads
(spec/30_encoding.md R82, R83, R85). -/

namespace Sys2Proof

theorem regNibble_toFin (x : Reg) : (regNibble x).toFin = x := rfl

/-! ### Fields of a word of each format -/

@[simp] theorem majorField_wordAddr (m : Nibble) (nnn : Addr) : majorField (wordAddr m nnn) = m := by
  apply BitVec.eq_of_getLsbD_eq
  intro k hk
  simp only [majorField, wordAddr, BitVec.getLsbD_extractLsb', BitVec.getLsbD_append]
  simp [hk]

@[simp] theorem nnnField_wordAddr (m : Nibble) (nnn : Addr) : nnnField (wordAddr m nnn) = nnn := by
  apply BitVec.eq_of_getLsbD_eq
  intro k hk
  simp only [nnnField, wordAddr, BitVec.getLsbD_extractLsb', BitVec.getLsbD_append]
  simp [hk]

@[simp] theorem majorField_wordRegImm (m : Nibble) (x : Reg) (nn : Byte) :
    majorField (wordRegImm m x nn) = m := by
  apply BitVec.eq_of_getLsbD_eq
  intro k hk
  have h1 : ¬(12 + k < 8) := by omega
  have h2 : ¬(12 + k - 8 < 4) := by omega
  have h3 : 12 + k - 8 - 4 = k := by omega
  simp only [majorField, wordRegImm, BitVec.getLsbD_extractLsb', BitVec.getLsbD_append]
  simp [hk, h1, h2, h3]

@[simp] theorem xField_wordRegImm (m : Nibble) (x : Reg) (nn : Byte) :
    xField (wordRegImm m x nn) = x := by
  have : (wordRegImm m x nn).extractLsb' 8 4 = regNibble x := by
    apply BitVec.eq_of_getLsbD_eq
    intro k hk
    simp only [wordRegImm, BitVec.getLsbD_extractLsb', BitVec.getLsbD_append]
    simp [hk]
  rw [xField, this, regNibble_toFin]

@[simp] theorem nnField_wordRegImm (m : Nibble) (x : Reg) (nn : Byte) :
    nnField (wordRegImm m x nn) = nn := by
  apply BitVec.eq_of_getLsbD_eq
  intro k hk
  simp only [nnField, wordRegImm, BitVec.getLsbD_extractLsb', BitVec.getLsbD_append]
  simp [hk]

/-- A word of format REG_REG is the word of format REG_IMM whose low byte is Y and N. -/
theorem wordRegReg_eq (m : Nibble) (x y : Reg) (n : Nibble) :
    wordRegReg m x y n = wordRegImm m x (regNibble y ++ n : BitVec 8) := rfl

@[simp] theorem majorField_wordRegReg (m : Nibble) (x y : Reg) (n : Nibble) :
    majorField (wordRegReg m x y n) = m := by simp [wordRegReg_eq]

@[simp] theorem xField_wordRegReg (m : Nibble) (x y : Reg) (n : Nibble) :
    xField (wordRegReg m x y n) = x := by simp [wordRegReg_eq]

@[simp] theorem yField_wordRegReg (m : Nibble) (x y : Reg) (n : Nibble) :
    yField (wordRegReg m x y n) = y := by
  have : (wordRegReg m x y n).extractLsb' 4 4 = regNibble y := by
    apply BitVec.eq_of_getLsbD_eq
    intro k hk
    have h1 : 4 + k < 8 := by omega
    simp only [wordRegReg, BitVec.getLsbD_extractLsb', BitVec.getLsbD_append]
    simp [hk, h1]
  rw [yField, this, regNibble_toFin]

@[simp] theorem nField_wordRegReg (m : Nibble) (x y : Reg) (n : Nibble) :
    nField (wordRegReg m x y n) = n := by
  apply BitVec.eq_of_getLsbD_eq
  intro k hk
  have h1 : k < 8 := by omega
  simp only [nField, wordRegReg, BitVec.getLsbD_extractLsb', BitVec.getLsbD_append]
  simp [hk, h1]

/-! ### A word is its fields -/

/-- Every word is the word of format ADDR of its own fields. -/
theorem wordAddr_fields (op : Word) : wordAddr (majorField op) (nnnField op) = op := by
  apply BitVec.eq_of_getLsbD_eq
  intro k hk
  by_cases h : k < 12
  · simp only [majorField, nnnField, wordAddr, BitVec.getLsbD_extractLsb', BitVec.getLsbD_append]
    simp [h]
  · have h4 : k - 12 < 4 := by omega
    have he : 12 + (k - 12) = k := by omega
    simp only [majorField, nnnField, wordAddr, BitVec.getLsbD_extractLsb', BitVec.getLsbD_append]
    simp [h, h4, he]

/-- Every word is the word of format REG_IMM of its own fields. -/
theorem wordRegImm_fields (op : Word) :
    wordRegImm (majorField op) (xField op) (nnField op) = op := by
  have hx : regNibble (xField op) = op.extractLsb' 8 4 := rfl
  apply BitVec.eq_of_getLsbD_eq
  intro k hk
  by_cases h : k < 8
  · simp only [majorField, nnField, wordRegImm, hx, BitVec.getLsbD_extractLsb', BitVec.getLsbD_append]
    simp [h]
  · by_cases h4 : k - 8 < 4
    · have he : 8 + (k - 8) = k := by omega
      simp only [majorField, nnField, wordRegImm, hx, BitVec.getLsbD_extractLsb', BitVec.getLsbD_append]
      simp [h, h4, he]
    · have h5 : k - 8 - 4 < 4 := by omega
      have he : 12 + (k - 8 - 4) = k := by omega
      simp only [majorField, nnField, wordRegImm, hx, BitVec.getLsbD_extractLsb', BitVec.getLsbD_append]
      simp [h, h4, h5, he]

/-- Every word is the word of format REG_REG of its own fields. -/
theorem wordRegReg_fields (op : Word) :
    wordRegReg (majorField op) (xField op) (yField op) (nField op) = op := by
  have hy : regNibble (yField op) = op.extractLsb' 4 4 := rfl
  have hlow : (regNibble (yField op) ++ nField op : BitVec 8) = nnField op := by
    apply BitVec.eq_of_getLsbD_eq
    intro k hk
    by_cases h : k < 4
    · simp only [hy, nField, nnField, BitVec.getLsbD_extractLsb', BitVec.getLsbD_append]
      simp [h, hk]
    · have h4 : k - 4 < 4 := by omega
      have he : 4 + (k - 4) = k := by omega
      simp only [hy, nField, nnField, BitVec.getLsbD_extractLsb', BitVec.getLsbD_append]
      simp [h, h4, he, hk]
  rw [wordRegReg_eq, hlow, wordRegImm_fields]

/-- The bytes of a word spell the word. -/
@[simp] theorem wordOfBytes_bytes (op : Word) : wordOfBytes (highByte op) (lowByte op) = op := by
  apply BitVec.eq_of_getLsbD_eq
  intro k hk
  by_cases h : k < 8
  · simp only [wordOfBytes, highByte, lowByte, BitVec.getLsbD_extractLsb', BitVec.getLsbD_append]
    simp [h]
  · have h4 : k - 8 < 8 := by omega
    have he : 8 + (k - 8) = k := by omega
    simp only [wordOfBytes, highByte, lowByte, BitVec.getLsbD_extractLsb', BitVec.getLsbD_append]
    simp [h, h4, he]

/-- The table's word goes through the byte decoder to `decode` unchanged. -/
theorem decodeTableWord_eq (nbits w : Nat) :
    decodeTableWord nbits w = (decode (tableWord nbits w)).toOption := by
  simp only [decodeTableWord, decodeBytes, wordOfBytes_bytes]
  cases decode (tableWord nbits w) <;> rfl

end Sys2Proof
end

