-- ==== Sys2Proof/Laws/State.lean ====
section
/-! SUPPORT. Beside State: for each update of the machine and each field, what the field holds after
it. Every lemma is true by unfolding the update once, and none is a claim about the hardware. -/

namespace Sys2Proof.Machine.State

variable (s : State)

/-! ### `writeV` -/

@[simp] theorem writeV_v (r : Reg) (b : Byte) : (s.writeV r b).v = s.v.set r.val b := rfl
@[simp] theorem writeV_pc (r : Reg) (b : Byte) : (s.writeV r b).pc = s.pc := rfl
@[simp] theorem writeV_i (r : Reg) (b : Byte) : (s.writeV r b).i = s.i := rfl
@[simp] theorem writeV_stack (r : Reg) (b : Byte) : (s.writeV r b).stack = s.stack := rfl
@[simp] theorem writeV_sp (r : Reg) (b : Byte) : (s.writeV r b).sp = s.sp := rfl
@[simp] theorem writeV_dt (r : Reg) (b : Byte) : (s.writeV r b).dt = s.dt := rfl
@[simp] theorem writeV_st (r : Reg) (b : Byte) : (s.writeV r b).st = s.st := rfl
@[simp] theorem writeV_mem (r : Reg) (b : Byte) : (s.writeV r b).mem = s.mem := rfl
@[simp] theorem writeV_fb (r : Reg) (b : Byte) : (s.writeV r b).fb = s.fb := rfl
@[simp] theorem writeV_dirty (r : Reg) (b : Byte) : (s.writeV r b).dirty = s.dirty := rfl
@[simp] theorem writeV_isOn (r : Reg) (b : Byte) : (s.writeV r b).isOn = s.isOn := rfl
@[simp] theorem writeV_keys (r : Reg) (b : Byte) : (s.writeV r b).keys = s.keys := rfl
@[simp] theorem writeV_mode (r : Reg) (b : Byte) : (s.writeV r b).mode = s.mode := rfl
@[simp] theorem writeV_cycleAcc (r : Reg) (b : Byte) : (s.writeV r b).cycleAcc = s.cycleAcc := rfl
@[simp] theorem writeV_timerAcc (r : Reg) (b : Byte) : (s.writeV r b).timerAcc = s.timerAcc := rfl
@[simp] theorem writeV_beepOut (r : Reg) (b : Byte) : (s.writeV r b).beepOut = s.beepOut := rfl
@[simp] theorem writeV_frameOut (r : Reg) (b : Byte) : (s.writeV r b).frameOut = s.frameOut := rfl
@[simp] theorem writeV_fault (r : Reg) (b : Byte) : (s.writeV r b).fault = s.fault := rfl
@[simp] theorem writeV_deltaUs (r : Reg) (b : Byte) : (s.writeV r b).deltaUs = s.deltaUs := rfl
@[simp] theorem writeV_keyIn (r : Reg) (b : Byte) : (s.writeV r b).keyIn = s.keyIn := rfl
@[simp] theorem writeV_quitIn (r : Reg) (b : Byte) : (s.writeV r b).quitIn = s.quitIn := rfl
@[simp] theorem writeV_rndIn (r : Reg) (b : Byte) : (s.writeV r b).rndIn = s.rndIn := rfl
@[simp] theorem writeV_samples (r : Reg) (b : Byte) : (s.writeV r b).samples = s.samples := rfl

/-! ### `jump` -/

@[simp] theorem jump_v (t : Word) : (s.jump t).v = s.v := rfl
@[simp] theorem jump_pc (t : Word) : (s.jump t).pc = t := rfl
@[simp] theorem jump_i (t : Word) : (s.jump t).i = s.i := rfl
@[simp] theorem jump_stack (t : Word) : (s.jump t).stack = s.stack := rfl
@[simp] theorem jump_sp (t : Word) : (s.jump t).sp = s.sp := rfl
@[simp] theorem jump_dt (t : Word) : (s.jump t).dt = s.dt := rfl
@[simp] theorem jump_st (t : Word) : (s.jump t).st = s.st := rfl
@[simp] theorem jump_mem (t : Word) : (s.jump t).mem = s.mem := rfl
@[simp] theorem jump_fb (t : Word) : (s.jump t).fb = s.fb := rfl
@[simp] theorem jump_dirty (t : Word) : (s.jump t).dirty = s.dirty := rfl
@[simp] theorem jump_isOn (t : Word) : (s.jump t).isOn = s.isOn := rfl
@[simp] theorem jump_keys (t : Word) : (s.jump t).keys = s.keys := rfl
@[simp] theorem jump_mode (t : Word) : (s.jump t).mode = s.mode := rfl
@[simp] theorem jump_cycleAcc (t : Word) : (s.jump t).cycleAcc = s.cycleAcc := rfl
@[simp] theorem jump_timerAcc (t : Word) : (s.jump t).timerAcc = s.timerAcc := rfl
@[simp] theorem jump_beepOut (t : Word) : (s.jump t).beepOut = s.beepOut := rfl
@[simp] theorem jump_frameOut (t : Word) : (s.jump t).frameOut = s.frameOut := rfl
@[simp] theorem jump_fault (t : Word) : (s.jump t).fault = s.fault := rfl
@[simp] theorem jump_deltaUs (t : Word) : (s.jump t).deltaUs = s.deltaUs := rfl
@[simp] theorem jump_keyIn (t : Word) : (s.jump t).keyIn = s.keyIn := rfl
@[simp] theorem jump_quitIn (t : Word) : (s.jump t).quitIn = s.quitIn := rfl
@[simp] theorem jump_rndIn (t : Word) : (s.jump t).rndIn = s.rndIn := rfl
@[simp] theorem jump_samples (t : Word) : (s.jump t).samples = s.samples := rfl

/-! ### `advance` -/

@[simp] theorem advance_v : (s.advance).v = s.v := rfl
@[simp] theorem advance_pc : (s.advance).pc = s.pc + 2 := rfl
@[simp] theorem advance_i : (s.advance).i = s.i := rfl
@[simp] theorem advance_stack : (s.advance).stack = s.stack := rfl
@[simp] theorem advance_sp : (s.advance).sp = s.sp := rfl
@[simp] theorem advance_dt : (s.advance).dt = s.dt := rfl
@[simp] theorem advance_st : (s.advance).st = s.st := rfl
@[simp] theorem advance_mem : (s.advance).mem = s.mem := rfl
@[simp] theorem advance_fb : (s.advance).fb = s.fb := rfl
@[simp] theorem advance_dirty : (s.advance).dirty = s.dirty := rfl
@[simp] theorem advance_isOn : (s.advance).isOn = s.isOn := rfl
@[simp] theorem advance_keys : (s.advance).keys = s.keys := rfl
@[simp] theorem advance_mode : (s.advance).mode = s.mode := rfl
@[simp] theorem advance_cycleAcc : (s.advance).cycleAcc = s.cycleAcc := rfl
@[simp] theorem advance_timerAcc : (s.advance).timerAcc = s.timerAcc := rfl
@[simp] theorem advance_beepOut : (s.advance).beepOut = s.beepOut := rfl
@[simp] theorem advance_frameOut : (s.advance).frameOut = s.frameOut := rfl
@[simp] theorem advance_fault : (s.advance).fault = s.fault := rfl
@[simp] theorem advance_deltaUs : (s.advance).deltaUs = s.deltaUs := rfl
@[simp] theorem advance_keyIn : (s.advance).keyIn = s.keyIn := rfl
@[simp] theorem advance_quitIn : (s.advance).quitIn = s.quitIn := rfl
@[simp] theorem advance_rndIn : (s.advance).rndIn = s.rndIn := rfl
@[simp] theorem advance_samples : (s.advance).samples = s.samples := rfl

/-! ### `skipIf` -/

@[simp] theorem skipIf_v (c : Bool) : (s.skipIf c).v = s.v := rfl
@[simp] theorem skipIf_pc (c : Bool) : (s.skipIf c).pc = if c then s.pc + 4 else s.pc + 2 := rfl
@[simp] theorem skipIf_i (c : Bool) : (s.skipIf c).i = s.i := rfl
@[simp] theorem skipIf_stack (c : Bool) : (s.skipIf c).stack = s.stack := rfl
@[simp] theorem skipIf_sp (c : Bool) : (s.skipIf c).sp = s.sp := rfl
@[simp] theorem skipIf_dt (c : Bool) : (s.skipIf c).dt = s.dt := rfl
@[simp] theorem skipIf_st (c : Bool) : (s.skipIf c).st = s.st := rfl
@[simp] theorem skipIf_mem (c : Bool) : (s.skipIf c).mem = s.mem := rfl
@[simp] theorem skipIf_fb (c : Bool) : (s.skipIf c).fb = s.fb := rfl
@[simp] theorem skipIf_dirty (c : Bool) : (s.skipIf c).dirty = s.dirty := rfl
@[simp] theorem skipIf_isOn (c : Bool) : (s.skipIf c).isOn = s.isOn := rfl
@[simp] theorem skipIf_keys (c : Bool) : (s.skipIf c).keys = s.keys := rfl
@[simp] theorem skipIf_mode (c : Bool) : (s.skipIf c).mode = s.mode := rfl
@[simp] theorem skipIf_cycleAcc (c : Bool) : (s.skipIf c).cycleAcc = s.cycleAcc := rfl
@[simp] theorem skipIf_timerAcc (c : Bool) : (s.skipIf c).timerAcc = s.timerAcc := rfl
@[simp] theorem skipIf_beepOut (c : Bool) : (s.skipIf c).beepOut = s.beepOut := rfl
@[simp] theorem skipIf_frameOut (c : Bool) : (s.skipIf c).frameOut = s.frameOut := rfl
@[simp] theorem skipIf_fault (c : Bool) : (s.skipIf c).fault = s.fault := rfl
@[simp] theorem skipIf_deltaUs (c : Bool) : (s.skipIf c).deltaUs = s.deltaUs := rfl
@[simp] theorem skipIf_keyIn (c : Bool) : (s.skipIf c).keyIn = s.keyIn := rfl
@[simp] theorem skipIf_quitIn (c : Bool) : (s.skipIf c).quitIn = s.quitIn := rfl
@[simp] theorem skipIf_rndIn (c : Bool) : (s.skipIf c).rndIn = s.rndIn := rfl
@[simp] theorem skipIf_samples (c : Bool) : (s.skipIf c).samples = s.samples := rfl

/-! ### `raise` -/

@[simp] theorem raise_v (c : Cause) (d : Nat) : (s.raise c d).v = s.v := rfl
@[simp] theorem raise_pc (c : Cause) (d : Nat) : (s.raise c d).pc = s.pc := rfl
@[simp] theorem raise_i (c : Cause) (d : Nat) : (s.raise c d).i = s.i := rfl
@[simp] theorem raise_stack (c : Cause) (d : Nat) : (s.raise c d).stack = s.stack := rfl
@[simp] theorem raise_sp (c : Cause) (d : Nat) : (s.raise c d).sp = s.sp := rfl
@[simp] theorem raise_dt (c : Cause) (d : Nat) : (s.raise c d).dt = s.dt := rfl
@[simp] theorem raise_st (c : Cause) (d : Nat) : (s.raise c d).st = s.st := rfl
@[simp] theorem raise_mem (c : Cause) (d : Nat) : (s.raise c d).mem = s.mem := rfl
@[simp] theorem raise_fb (c : Cause) (d : Nat) : (s.raise c d).fb = s.fb := rfl
@[simp] theorem raise_dirty (c : Cause) (d : Nat) : (s.raise c d).dirty = s.dirty := rfl
@[simp] theorem raise_isOn (c : Cause) (d : Nat) : (s.raise c d).isOn = s.isOn := rfl
@[simp] theorem raise_keys (c : Cause) (d : Nat) : (s.raise c d).keys = s.keys := rfl
@[simp] theorem raise_mode (c : Cause) (d : Nat) : (s.raise c d).mode = .faulted := rfl
@[simp] theorem raise_cycleAcc (c : Cause) (d : Nat) : (s.raise c d).cycleAcc = s.cycleAcc := rfl
@[simp] theorem raise_timerAcc (c : Cause) (d : Nat) : (s.raise c d).timerAcc = s.timerAcc := rfl
@[simp] theorem raise_beepOut (c : Cause) (d : Nat) : (s.raise c d).beepOut = s.beepOut := rfl
@[simp] theorem raise_frameOut (c : Cause) (d : Nat) : (s.raise c d).frameOut = s.frameOut := rfl
@[simp] theorem raise_fault (c : Cause) (d : Nat) : (s.raise c d).fault = ⟨c, BitVec.ofNat 17 d⟩ := rfl
@[simp] theorem raise_deltaUs (c : Cause) (d : Nat) : (s.raise c d).deltaUs = s.deltaUs := rfl
@[simp] theorem raise_keyIn (c : Cause) (d : Nat) : (s.raise c d).keyIn = s.keyIn := rfl
@[simp] theorem raise_quitIn (c : Cause) (d : Nat) : (s.raise c d).quitIn = s.quitIn := rfl
@[simp] theorem raise_rndIn (c : Cause) (d : Nat) : (s.raise c d).rndIn = s.rndIn := rfl
@[simp] theorem raise_samples (c : Cause) (d : Nat) : (s.raise c d).samples = s.samples := rfl

/-! ### `writeResultFlag` -/

@[simp] theorem writeResultFlag_pc (x : Reg) (b f : Byte) : (s.writeResultFlag x b f).pc = s.pc := rfl
@[simp] theorem writeResultFlag_i (x : Reg) (b f : Byte) : (s.writeResultFlag x b f).i = s.i := rfl
@[simp] theorem writeResultFlag_stack (x : Reg) (b f : Byte) : (s.writeResultFlag x b f).stack = s.stack := rfl
@[simp] theorem writeResultFlag_sp (x : Reg) (b f : Byte) : (s.writeResultFlag x b f).sp = s.sp := rfl
@[simp] theorem writeResultFlag_dt (x : Reg) (b f : Byte) : (s.writeResultFlag x b f).dt = s.dt := rfl
@[simp] theorem writeResultFlag_st (x : Reg) (b f : Byte) : (s.writeResultFlag x b f).st = s.st := rfl
@[simp] theorem writeResultFlag_mem (x : Reg) (b f : Byte) : (s.writeResultFlag x b f).mem = s.mem := rfl
@[simp] theorem writeResultFlag_fb (x : Reg) (b f : Byte) : (s.writeResultFlag x b f).fb = s.fb := rfl
@[simp] theorem writeResultFlag_dirty (x : Reg) (b f : Byte) : (s.writeResultFlag x b f).dirty = s.dirty := rfl
@[simp] theorem writeResultFlag_isOn (x : Reg) (b f : Byte) : (s.writeResultFlag x b f).isOn = s.isOn := rfl
@[simp] theorem writeResultFlag_keys (x : Reg) (b f : Byte) : (s.writeResultFlag x b f).keys = s.keys := rfl
@[simp] theorem writeResultFlag_mode (x : Reg) (b f : Byte) : (s.writeResultFlag x b f).mode = s.mode := rfl
@[simp] theorem writeResultFlag_cycleAcc (x : Reg) (b f : Byte) : (s.writeResultFlag x b f).cycleAcc = s.cycleAcc := rfl
@[simp] theorem writeResultFlag_timerAcc (x : Reg) (b f : Byte) : (s.writeResultFlag x b f).timerAcc = s.timerAcc := rfl
@[simp] theorem writeResultFlag_beepOut (x : Reg) (b f : Byte) : (s.writeResultFlag x b f).beepOut = s.beepOut := rfl
@[simp] theorem writeResultFlag_frameOut (x : Reg) (b f : Byte) : (s.writeResultFlag x b f).frameOut = s.frameOut := rfl
@[simp] theorem writeResultFlag_fault (x : Reg) (b f : Byte) : (s.writeResultFlag x b f).fault = s.fault := rfl
@[simp] theorem writeResultFlag_deltaUs (x : Reg) (b f : Byte) : (s.writeResultFlag x b f).deltaUs = s.deltaUs := rfl
@[simp] theorem writeResultFlag_keyIn (x : Reg) (b f : Byte) : (s.writeResultFlag x b f).keyIn = s.keyIn := rfl
@[simp] theorem writeResultFlag_quitIn (x : Reg) (b f : Byte) : (s.writeResultFlag x b f).quitIn = s.quitIn := rfl
@[simp] theorem writeResultFlag_rndIn (x : Reg) (b f : Byte) : (s.writeResultFlag x b f).rndIn = s.rndIn := rfl
@[simp] theorem writeResultFlag_samples (x : Reg) (b f : Byte) : (s.writeResultFlag x b f).samples = s.samples := rfl

/-! ### `fbClear` -/

@[simp] theorem fbClear_v : (s.fbClear).v = s.v := rfl
@[simp] theorem fbClear_pc : (s.fbClear).pc = s.pc := rfl
@[simp] theorem fbClear_i : (s.fbClear).i = s.i := rfl
@[simp] theorem fbClear_stack : (s.fbClear).stack = s.stack := rfl
@[simp] theorem fbClear_sp : (s.fbClear).sp = s.sp := rfl
@[simp] theorem fbClear_dt : (s.fbClear).dt = s.dt := rfl
@[simp] theorem fbClear_st : (s.fbClear).st = s.st := rfl
@[simp] theorem fbClear_mem : (s.fbClear).mem = s.mem := rfl
@[simp] theorem fbClear_fb : (s.fbClear).fb = Vector.replicate fbHeight 0 := rfl
@[simp] theorem fbClear_dirty : (s.fbClear).dirty = true := rfl
@[simp] theorem fbClear_isOn : (s.fbClear).isOn = s.isOn := rfl
@[simp] theorem fbClear_keys : (s.fbClear).keys = s.keys := rfl
@[simp] theorem fbClear_mode : (s.fbClear).mode = s.mode := rfl
@[simp] theorem fbClear_cycleAcc : (s.fbClear).cycleAcc = s.cycleAcc := rfl
@[simp] theorem fbClear_timerAcc : (s.fbClear).timerAcc = s.timerAcc := rfl
@[simp] theorem fbClear_beepOut : (s.fbClear).beepOut = s.beepOut := rfl
@[simp] theorem fbClear_frameOut : (s.fbClear).frameOut = s.frameOut := rfl
@[simp] theorem fbClear_fault : (s.fbClear).fault = s.fault := rfl
@[simp] theorem fbClear_deltaUs : (s.fbClear).deltaUs = s.deltaUs := rfl
@[simp] theorem fbClear_keyIn : (s.fbClear).keyIn = s.keyIn := rfl
@[simp] theorem fbClear_quitIn : (s.fbClear).quitIn = s.quitIn := rfl
@[simp] theorem fbClear_rndIn : (s.fbClear).rndIn = s.rndIn := rfl
@[simp] theorem fbClear_samples : (s.fbClear).samples = s.samples := rfl

/-! ### `fbToggle` -/

@[simp] theorem fbToggle_v (k : Nat) : (s.fbToggle k).v = s.v := rfl
@[simp] theorem fbToggle_pc (k : Nat) : (s.fbToggle k).pc = s.pc := rfl
@[simp] theorem fbToggle_i (k : Nat) : (s.fbToggle k).i = s.i := rfl
@[simp] theorem fbToggle_stack (k : Nat) : (s.fbToggle k).stack = s.stack := rfl
@[simp] theorem fbToggle_sp (k : Nat) : (s.fbToggle k).sp = s.sp := rfl
@[simp] theorem fbToggle_dt (k : Nat) : (s.fbToggle k).dt = s.dt := rfl
@[simp] theorem fbToggle_st (k : Nat) : (s.fbToggle k).st = s.st := rfl
@[simp] theorem fbToggle_mem (k : Nat) : (s.fbToggle k).mem = s.mem := rfl
@[simp] theorem fbToggle_fb (k : Nat) : (s.fbToggle k).fb =
    s.fb.set (cellRow k).val (s.fb[cellRow k] ^^^ BitVec.twoPow fbWidth (cellCol k)) := rfl
@[simp] theorem fbToggle_dirty (k : Nat) : (s.fbToggle k).dirty = true := rfl
@[simp] theorem fbToggle_isOn (k : Nat) : (s.fbToggle k).isOn = s.isOn := rfl
@[simp] theorem fbToggle_keys (k : Nat) : (s.fbToggle k).keys = s.keys := rfl
@[simp] theorem fbToggle_mode (k : Nat) : (s.fbToggle k).mode = s.mode := rfl
@[simp] theorem fbToggle_cycleAcc (k : Nat) : (s.fbToggle k).cycleAcc = s.cycleAcc := rfl
@[simp] theorem fbToggle_timerAcc (k : Nat) : (s.fbToggle k).timerAcc = s.timerAcc := rfl
@[simp] theorem fbToggle_beepOut (k : Nat) : (s.fbToggle k).beepOut = s.beepOut := rfl
@[simp] theorem fbToggle_frameOut (k : Nat) : (s.fbToggle k).frameOut = s.frameOut := rfl
@[simp] theorem fbToggle_fault (k : Nat) : (s.fbToggle k).fault = s.fault := rfl
@[simp] theorem fbToggle_deltaUs (k : Nat) : (s.fbToggle k).deltaUs = s.deltaUs := rfl
@[simp] theorem fbToggle_keyIn (k : Nat) : (s.fbToggle k).keyIn = s.keyIn := rfl
@[simp] theorem fbToggle_quitIn (k : Nat) : (s.fbToggle k).quitIn = s.quitIn := rfl
@[simp] theorem fbToggle_rndIn (k : Nat) : (s.fbToggle k).rndIn = s.rndIn := rfl
@[simp] theorem fbToggle_samples (k : Nat) : (s.fbToggle k).samples = s.samples := rfl

/-! ### `nextRand` -/

@[simp] theorem nextRand_v : (s.nextRand).v = s.v := rfl
@[simp] theorem nextRand_pc : (s.nextRand).pc = s.pc := rfl
@[simp] theorem nextRand_i : (s.nextRand).i = s.i := rfl
@[simp] theorem nextRand_stack : (s.nextRand).stack = s.stack := rfl
@[simp] theorem nextRand_sp : (s.nextRand).sp = s.sp := rfl
@[simp] theorem nextRand_dt : (s.nextRand).dt = s.dt := rfl
@[simp] theorem nextRand_st : (s.nextRand).st = s.st := rfl
@[simp] theorem nextRand_mem : (s.nextRand).mem = s.mem := rfl
@[simp] theorem nextRand_fb : (s.nextRand).fb = s.fb := rfl
@[simp] theorem nextRand_dirty : (s.nextRand).dirty = s.dirty := rfl
@[simp] theorem nextRand_isOn : (s.nextRand).isOn = s.isOn := rfl
@[simp] theorem nextRand_keys : (s.nextRand).keys = s.keys := rfl
@[simp] theorem nextRand_mode : (s.nextRand).mode = s.mode := rfl
@[simp] theorem nextRand_cycleAcc : (s.nextRand).cycleAcc = s.cycleAcc := rfl
@[simp] theorem nextRand_timerAcc : (s.nextRand).timerAcc = s.timerAcc := rfl
@[simp] theorem nextRand_beepOut : (s.nextRand).beepOut = s.beepOut := rfl
@[simp] theorem nextRand_frameOut : (s.nextRand).frameOut = s.frameOut := rfl
@[simp] theorem nextRand_fault : (s.nextRand).fault = s.fault := rfl
@[simp] theorem nextRand_deltaUs : (s.nextRand).deltaUs = s.deltaUs := rfl
@[simp] theorem nextRand_keyIn : (s.nextRand).keyIn = s.keyIn := rfl
@[simp] theorem nextRand_quitIn : (s.nextRand).quitIn = s.quitIn := rfl
@[simp] theorem nextRand_rndIn : (s.nextRand).rndIn = Config.rndIn s.samples := rfl
@[simp] theorem nextRand_samples : (s.nextRand).samples = s.samples + 1 := rfl

/-! ### `nextSamples` -/

@[simp] theorem nextSamples_v : (s.nextSamples).v = s.v := rfl
@[simp] theorem nextSamples_pc : (s.nextSamples).pc = s.pc := rfl
@[simp] theorem nextSamples_i : (s.nextSamples).i = s.i := rfl
@[simp] theorem nextSamples_stack : (s.nextSamples).stack = s.stack := rfl
@[simp] theorem nextSamples_sp : (s.nextSamples).sp = s.sp := rfl
@[simp] theorem nextSamples_dt : (s.nextSamples).dt = s.dt := rfl
@[simp] theorem nextSamples_st : (s.nextSamples).st = s.st := rfl
@[simp] theorem nextSamples_mem : (s.nextSamples).mem = s.mem := rfl
@[simp] theorem nextSamples_fb : (s.nextSamples).fb = s.fb := rfl
@[simp] theorem nextSamples_dirty : (s.nextSamples).dirty = s.dirty := rfl
@[simp] theorem nextSamples_isOn : (s.nextSamples).isOn = s.isOn := rfl
@[simp] theorem nextSamples_keys : (s.nextSamples).keys = s.keys := rfl
@[simp] theorem nextSamples_mode : (s.nextSamples).mode = s.mode := rfl
@[simp] theorem nextSamples_cycleAcc : (s.nextSamples).cycleAcc = s.cycleAcc := rfl
@[simp] theorem nextSamples_timerAcc : (s.nextSamples).timerAcc = s.timerAcc := rfl
@[simp] theorem nextSamples_beepOut : (s.nextSamples).beepOut = s.beepOut := rfl
@[simp] theorem nextSamples_frameOut : (s.nextSamples).frameOut = s.frameOut := rfl
@[simp] theorem nextSamples_fault : (s.nextSamples).fault = s.fault := rfl
@[simp] theorem nextSamples_deltaUs : (s.nextSamples).deltaUs = Config.deltaUs s.samples := rfl
@[simp] theorem nextSamples_keyIn : (s.nextSamples).keyIn = Config.keyIn s.samples := rfl
@[simp] theorem nextSamples_quitIn : (s.nextSamples).quitIn = Config.quitIn s.samples := rfl
@[simp] theorem nextSamples_rndIn : (s.nextSamples).rndIn = Config.rndIn s.samples := rfl
@[simp] theorem nextSamples_samples : (s.nextSamples).samples = s.samples + 1 := rfl

/-! ### `addTime` -/

@[simp] theorem addTime_v : (s.addTime).v = s.v := rfl
@[simp] theorem addTime_pc : (s.addTime).pc = s.pc := rfl
@[simp] theorem addTime_i : (s.addTime).i = s.i := rfl
@[simp] theorem addTime_stack : (s.addTime).stack = s.stack := rfl
@[simp] theorem addTime_sp : (s.addTime).sp = s.sp := rfl
@[simp] theorem addTime_dt : (s.addTime).dt = s.dt := rfl
@[simp] theorem addTime_st : (s.addTime).st = s.st := rfl
@[simp] theorem addTime_mem : (s.addTime).mem = s.mem := rfl
@[simp] theorem addTime_fb : (s.addTime).fb = s.fb := rfl
@[simp] theorem addTime_dirty : (s.addTime).dirty = s.dirty := rfl
@[simp] theorem addTime_isOn : (s.addTime).isOn = s.isOn := rfl
@[simp] theorem addTime_keys : (s.addTime).keys = s.keys := rfl
@[simp] theorem addTime_mode : (s.addTime).mode = s.mode := rfl
@[simp] theorem addTime_cycleAcc : (s.addTime).cycleAcc = s.cycleAcc + s.deltaUs := rfl
@[simp] theorem addTime_timerAcc : (s.addTime).timerAcc = s.timerAcc + s.deltaUs := rfl
@[simp] theorem addTime_beepOut : (s.addTime).beepOut = s.beepOut := rfl
@[simp] theorem addTime_frameOut : (s.addTime).frameOut = s.frameOut := rfl
@[simp] theorem addTime_fault : (s.addTime).fault = s.fault := rfl
@[simp] theorem addTime_deltaUs : (s.addTime).deltaUs = s.deltaUs := rfl
@[simp] theorem addTime_keyIn : (s.addTime).keyIn = s.keyIn := rfl
@[simp] theorem addTime_quitIn : (s.addTime).quitIn = s.quitIn := rfl
@[simp] theorem addTime_rndIn : (s.addTime).rndIn = s.rndIn := rfl
@[simp] theorem addTime_samples : (s.addTime).samples = s.samples := rfl

/-! ### `clearCycle` -/

@[simp] theorem clearCycle_v : (s.clearCycle).v = s.v := rfl
@[simp] theorem clearCycle_pc : (s.clearCycle).pc = s.pc := rfl
@[simp] theorem clearCycle_i : (s.clearCycle).i = s.i := rfl
@[simp] theorem clearCycle_stack : (s.clearCycle).stack = s.stack := rfl
@[simp] theorem clearCycle_sp : (s.clearCycle).sp = s.sp := rfl
@[simp] theorem clearCycle_dt : (s.clearCycle).dt = s.dt := rfl
@[simp] theorem clearCycle_st : (s.clearCycle).st = s.st := rfl
@[simp] theorem clearCycle_mem : (s.clearCycle).mem = s.mem := rfl
@[simp] theorem clearCycle_fb : (s.clearCycle).fb = s.fb := rfl
@[simp] theorem clearCycle_dirty : (s.clearCycle).dirty = s.dirty := rfl
@[simp] theorem clearCycle_isOn : (s.clearCycle).isOn = s.isOn := rfl
@[simp] theorem clearCycle_keys : (s.clearCycle).keys = s.keys := rfl
@[simp] theorem clearCycle_mode : (s.clearCycle).mode = s.mode := rfl
@[simp] theorem clearCycle_cycleAcc : (s.clearCycle).cycleAcc = 0 := rfl
@[simp] theorem clearCycle_timerAcc : (s.clearCycle).timerAcc = s.timerAcc := rfl
@[simp] theorem clearCycle_beepOut : (s.clearCycle).beepOut = s.beepOut := rfl
@[simp] theorem clearCycle_frameOut : (s.clearCycle).frameOut = s.frameOut := rfl
@[simp] theorem clearCycle_fault : (s.clearCycle).fault = s.fault := rfl
@[simp] theorem clearCycle_deltaUs : (s.clearCycle).deltaUs = s.deltaUs := rfl
@[simp] theorem clearCycle_keyIn : (s.clearCycle).keyIn = s.keyIn := rfl
@[simp] theorem clearCycle_quitIn : (s.clearCycle).quitIn = s.quitIn := rfl
@[simp] theorem clearCycle_rndIn : (s.clearCycle).rndIn = s.rndIn := rfl
@[simp] theorem clearCycle_samples : (s.clearCycle).samples = s.samples := rfl

/-! ### Reading registers through the updates -/

theorem readV_def (r : Reg) : s.readV r = s.v[r.val] := rfl

@[simp] theorem readV_writeV (x r : Reg) (b : Byte) :
    (s.writeV x b).readV r = if r = x then b else s.readV r := by
  by_cases h : r = x
  · subst h; simp [readV, writeV]
  · have hne : x.val ≠ r.val := fun e => h (Fin.ext e.symm)
    simp [readV, writeV, h, Vector.getElem_set_ne _ _ hne]

@[simp] theorem readV_writeResultFlag (x r : Reg) (b f : Byte) :
    (s.writeResultFlag x b f).readV r = if r = vf then f else if r = x then b else s.readV r := by
  simp [writeResultFlag]

@[simp] theorem jump_readV (t : Word) (r : Reg) : (s.jump t).readV r = s.readV r := rfl
@[simp] theorem advance_readV (r : Reg) : (s.advance).readV r = s.readV r := rfl
@[simp] theorem skipIf_readV (c : Bool) (r : Reg) : (s.skipIf c).readV r = s.readV r := rfl
@[simp] theorem raise_readV (c : Cause) (d : Nat) (r : Reg) : (s.raise c d).readV r = s.readV r := rfl
@[simp] theorem fbClear_readV (r : Reg) : (s.fbClear).readV r = s.readV r := rfl
@[simp] theorem fbToggle_readV (k : Nat) (r : Reg) : (s.fbToggle k).readV r = s.readV r := rfl
@[simp] theorem nextRand_readV (r : Reg) : (s.nextRand).readV r = s.readV r := rfl
@[simp] theorem nextSamples_readV (r : Reg) : (s.nextSamples).readV r = s.readV r := rfl
@[simp] theorem addTime_readV (r : Reg) : (s.addTime).readV r = s.readV r := rfl
@[simp] theorem clearCycle_readV (r : Reg) : (s.clearCycle).readV r = s.readV r := rfl

/-- A state is determined by its fields; an update of a field to its own value is no update. -/
theorem readV_congr {s t : State} (h : t.v = s.v) (r : Reg) : t.readV r = s.readV r := by
  simp [readV, h]

/-- Two register files that read alike are equal. -/
theorem v_ext {s t : State} (h : ∀ r : Reg, t.readV r = s.readV r) : t.v = s.v := by
  apply Vector.ext
  intro k hk
  exact h ⟨k, hk⟩

end Sys2Proof.Machine.State
end

