-- ==== Sys2Proof/Laws/Memory.lean ====
section
/-! SUPPORT. What the memory operations do: reads after writes, the canonical form, and one lemma per
checked access (spec/20_memory.md R53 to R57, R66; spec/45_memory_index.md R197). -/

namespace Sys2Proof.Machine

/-! ### Memory as data -/

theorem Memory.read_erase (m : Memory) (a b : Nat) :
    (Memory.erase m a).read b = if b = a then Memory.initial b else m.read b := by
  induction m with
  | nil => simp [Memory.erase, Memory.read]
  | cons c m ih =>
    obtain ⟨d, w⟩ := c
    by_cases hd : d = a
    · subst hd
      by_cases hb : b = d
      · subst hb; simp [Memory.erase, ih]
      · simp [Memory.erase, Memory.read, ih, hb, Ne.symm hb]
    · by_cases hb : d = b
      · subst hb; simp [Memory.erase, Memory.read, hd]
      · simp [Memory.erase, Memory.read, hd, hb, ih]

theorem Memory.erase_absent (m : Memory) (a : Nat) : ∀ c ∈ Memory.erase m a, c.1 ≠ a := by
  induction m with
  | nil => simp [Memory.erase]
  | cons c m ih =>
    obtain ⟨d, w⟩ := c
    by_cases hd : d = a
    · simpa [Memory.erase, hd] using ih
    · simpa [Memory.erase, hd] using ih

theorem Memory.read_insert_ne (m : Memory) {a b : Nat} (v : Byte) (h : b ≠ a) :
    (Memory.insert m a v).read b = m.read b := by
  induction m with
  | nil => simp [Memory.insert, Memory.read, Ne.symm h]
  | cons c m ih =>
    obtain ⟨d, w⟩ := c
    by_cases hlt : a < d <;> simp [Memory.insert, hlt, Memory.read, Ne.symm h, ih]

theorem Memory.read_insert_same (m : Memory) (a : Nat) (v : Byte) (h : ∀ c ∈ m, c.1 ≠ a) :
    (Memory.insert m a v).read a = v := by
  induction m with
  | nil => simp [Memory.insert, Memory.read]
  | cons c m ih =>
    obtain ⟨d, w⟩ := c
    have hd : d ≠ a := h (d, w) (by simp)
    by_cases hlt : a < d
    · simp [Memory.insert, hlt, Memory.read]
    · simp [Memory.insert, hlt, Memory.read, hd, ih (fun c hc => h c (by simp [hc]))]

/-- A read after a write: the written byte at its address, every other byte as before (R66). -/
@[simp] theorem Memory.read_write (m : Memory) (a b : Nat) (v : Byte) :
    (Memory.write m a v).read b = if b = a then v else m.read b := by
  unfold Memory.write
  by_cases hb : b = a
  · subst hb
    split
    · next hv => simp [Memory.read_erase, hv]
    · simpa using Memory.read_insert_same _ _ _ (Memory.erase_absent m b)
  · split
    · simp [Memory.read_erase, hb]
    · simp [Memory.read_insert_ne _ _ hb, Memory.read_erase, hb]

/-- A read after a run of writes. -/
theorem Memory.read_writeAll (m : Memory) (a b : Nat) (vs : List Byte) :
    (Memory.writeAll m a vs).read b =
      if h : a ≤ b ∧ b < a + vs.length then vs[b - a] else m.read b := by
  induction vs generalizing m a with
  | nil =>
    have : ¬(a ≤ b ∧ b < a) := by omega
    simp [Memory.writeAll, this]
  | cons v vs ih =>
    rw [Memory.writeAll, ih]
    by_cases hb : b = a
    · subst hb
      simp
    · by_cases hin : a + 1 ≤ b ∧ b < a + 1 + vs.length
      · have h2 : a ≤ b ∧ b < a + (v :: vs).length := by simp; omega
        have h3 : b - a = (b - (a + 1)) + 1 := by omega
        simp only [hin, h2, and_self, dite_true, h3, List.getElem_cons_succ]
      · have h2 : ¬(a ≤ b ∧ b < a + (v :: vs).length) := by simp; omega
        simp only [hin, h2, dite_false, Memory.read_write, hb, if_false]

theorem Memory.mem_erase {m : Memory} {a : Nat} {c : Host.Cell} (h : c ∈ Memory.erase m a) :
    c ∈ m ∧ c.1 ≠ a := by
  refine ⟨?_, Memory.erase_absent m a c h⟩
  induction m with
  | nil => simp [Memory.erase] at h
  | cons d m ih =>
    obtain ⟨d, w⟩ := d
    by_cases hd : d = a
    · simp [Memory.erase, hd] at h; exact List.mem_cons_of_mem _ (ih h)
    · simp only [Memory.erase, hd, if_false, List.mem_cons] at h
      rcases h with h | h
      · simp [h]
      · exact List.mem_cons_of_mem _ (ih h)

theorem Memory.erase_wf {m : Memory} (a : Nat) (h : m.wf) : Memory.wf (Memory.erase m a) := by
  refine ⟨?_, fun c hc => h.2 c (Memory.mem_erase hc).1⟩
  have hp := h.1
  clear h
  induction m with
  | nil => simp [Memory.erase]
  | cons d m ih =>
    obtain ⟨d, w⟩ := d
    rw [List.pairwise_cons] at hp
    by_cases hd : d = a
    · simp only [Memory.erase, hd, if_true]; exact ih hp.2
    · simp only [Memory.erase, hd, if_false, List.pairwise_cons]
      exact ⟨fun c hc => hp.1 c (Memory.mem_erase hc).1, ih hp.2⟩

theorem Memory.mem_insert {m : Memory} {a : Nat} {v : Byte} {c : Host.Cell}
    (h : c ∈ Memory.insert m a v) : c = (a, v) ∨ c ∈ m := by
  induction m with
  | nil => simpa [Memory.insert] using h
  | cons d m ih =>
    obtain ⟨d, w⟩ := d
    by_cases hlt : a < d
    · simpa [Memory.insert, hlt] using h
    · simp only [Memory.insert, hlt, if_false, List.mem_cons] at h
      rcases h with h | h
      · simp [h]
      · rcases ih h with h | h <;> simp [h]

theorem Memory.insert_wf {m : Memory} {a : Nat} {v : Byte} (h : m.wf) (ha : a < 4096)
    (hv : v ≠ Memory.initial a) (hm : ∀ c ∈ m, c.1 ≠ a) : Memory.wf (Memory.insert m a v) := by
  constructor
  · have hp := h.1
    clear h
    induction m with
    | nil => simp [Memory.insert]
    | cons d m ih =>
      obtain ⟨d, w⟩ := d
      rw [List.pairwise_cons] at hp
      by_cases hlt : a < d
      · simp only [Memory.insert, hlt, if_true, List.pairwise_cons]
        refine ⟨?_, hp.1, hp.2⟩
        intro c hc
        rcases List.mem_cons.1 hc with rfl | hc
        · exact hlt
        · exact Nat.lt_trans hlt (hp.1 c hc)
      · simp only [Memory.insert, hlt, if_false, List.pairwise_cons]
        refine ⟨?_, ih (fun c hc => hm c (List.mem_cons_of_mem _ hc)) hp.2⟩
        intro c hc
        rcases Memory.mem_insert hc with rfl | hc
        · have : d ≠ a := hm (d, w) (by simp)
          simp only; omega
        · exact hp.1 c hc
  · intro c hc
    rcases Memory.mem_insert hc with rfl | hc
    · exact ⟨ha, hv⟩
    · exact h.2 c hc

/-- A write inside the address space keeps the canonical form. -/
theorem Memory.write_wf {m : Memory} {a : Nat} (v : Byte) (h : m.wf) (ha : a < 4096) :
    Memory.wf (Memory.write m a v) := by
  unfold Memory.write
  split
  · exact Memory.erase_wf a h
  · next hv => exact Memory.insert_wf (Memory.erase_wf a h) ha hv (Memory.erase_absent m a)

/-- A run of writes inside the address space keeps the canonical form. -/
theorem Memory.writeAll_wf {m : Memory} {a : Nat} (vs : List Byte) (h : m.wf)
    (ha : a + vs.length ≤ 4096) : Memory.wf (Memory.writeAll m a vs) := by
  induction vs generalizing m a with
  | nil => exact h
  | cons v vs ih =>
    simp only [List.length_cons] at ha
    exact ih (Memory.write_wf v h (by omega)) (by omega)

theorem Memory.reset_wf : Memory.wf [] := by simp [Memory.wf]

/-! ### The checked accesses -/

theorem State.memRead_done (s : State) {a : Nat} (h : a < 4096) :
    s.memRead a = .done (s.mem.read a) s := by simp [State.memRead, h]

theorem State.memRead_raised (s : State) {a : Nat} (h : 4096 ≤ a) :
    s.memRead a = .raised (s.raise .invalidAddress a) := by
  simp [State.memRead, Nat.not_lt.2 h]

theorem State.memWrite_done (s : State) {a : Nat} (v : Byte) (h : a < 4096) :
    s.memWrite a v = .done () { s with mem := s.mem.write a v } := by simp [State.memWrite, h]

theorem State.memWrite_raised (s : State) {a : Nat} (v : Byte) (h : 4096 ≤ a) :
    s.memWrite a v = .raised (s.raise .invalidAddress a) := by
  simp [State.memWrite, Nat.not_lt.2 h]

/-- Byte stores that stay inside the address space all happen. -/
theorem State.storeBytes_done (s : State) (a : Nat) (bs : List Byte)
    (h : a + bs.length ≤ 4096) :
    s.storeBytes a bs = .done () { s with mem := s.mem.writeAll a bs } := by
  induction bs generalizing s a with
  | nil => rfl
  | cons b bs ih =>
    simp only [List.length_cons] at h
    rw [State.storeBytes, State.memWrite_done s b (by omega)]
    simp only
    rw [ih _ _ (by omega)]
    rfl

/-- Byte stores that leave the address space: the ones before the first bad address happen, and the
error names that address. -/
theorem State.storeBytes_raised (s : State) (a : Nat) (bs : List Byte) (hne : bs ≠ [])
    (h : 4096 < a + bs.length) :
    s.storeBytes a bs = .raised
      (State.raise { s with mem := s.mem.writeAll a (bs.take (4096 - a)) } .invalidAddress
        (max a 4096)) := by
  induction bs generalizing s a with
  | nil => exact absurd rfl hne
  | cons b bs ih =>
    simp only [List.length_cons] at h
    by_cases ha : a < 4096
    · rw [State.storeBytes, State.memWrite_done s b ha]
      have hbs : bs ≠ [] := by
        rintro rfl
        simp at h; omega
      have hk : 4096 - a = (4096 - (a + 1)) + 1 := by omega
      have hm : max (a + 1) 4096 = max a 4096 := by omega
      simp only
      rw [ih _ _ hbs (by omega), hk, List.take_succ_cons, hm]
      rfl
    · rw [State.storeBytes, State.memWrite_raised s b (by omega)]
      have h0 : 4096 - a = 0 := by omega
      have hm : max a 4096 = a := by omega
      simp only [h0, hm, List.take_zero, Memory.writeAll]

/-- Register loads that stay inside the address space all happen, and touch nothing but the listed
registers. -/
theorem State.loadRegs_done (s : State) (a : Nat) (rs : List Reg) (h : a + rs.length ≤ 4096) :
    ∃ t : State, s.loadRegs a rs = .done () t ∧ t = { s with v := t.v } ∧
      (∀ r, r ∉ rs → t.readV r = s.readV r) ∧
      (rs.Nodup → ∀ k (hk : k < rs.length), t.readV rs[k] = s.mem.read (a + k)) := by
  induction rs generalizing s a with
  | nil => exact ⟨s, rfl, rfl, fun _ _ => rfl, fun _ k hk => absurd hk (by simp)⟩
  | cons r rs ih =>
    simp only [List.length_cons] at h
    obtain ⟨t, ht, hframe, hout, hin⟩ := ih (s.writeV r (s.mem.read a)) (a + 1) (by omega)
    refine ⟨t, ?_, ?_, ?_, ?_⟩
    · rw [State.loadRegs, State.memRead_done s (by omega)]; exact ht
    · rw [hframe]; rfl
    · intro q hq
      simp only [List.mem_cons, not_or] at hq
      rw [hout q hq.2]; simp [hq.1]
    · intro hnd k hk
      rw [List.nodup_cons] at hnd
      cases k with
      | zero =>
        simp only [List.getElem_cons_zero]
        rw [hout r hnd.1]; simp
      | succ k =>
        simp only [List.getElem_cons_succ]
        rw [hin hnd.2 k (by simpa using hk)]
        simp [Nat.add_left_comm, Nat.add_comm]

/-- Register loads that leave the address space: the ones before the first bad address happen, and
the error names that address. -/
theorem State.loadRegs_raised (s : State) (a : Nat) (rs : List Reg) (hne : rs ≠ [])
    (h : 4096 < a + rs.length) :
    ∃ t : State, s.loadRegs a rs = .raised (t.raise .invalidAddress (max a 4096)) ∧
      t = { s with v := t.v } ∧
      (∀ r, r ∉ rs.take (4096 - a) → t.readV r = s.readV r) ∧
      (rs.Nodup → ∀ k (hk : k < rs.length), a + k < 4096 → t.readV rs[k] = s.mem.read (a + k)) := by
  induction rs generalizing s a with
  | nil => exact absurd rfl hne
  | cons r rs ih =>
    simp only [List.length_cons] at h
    by_cases ha : a < 4096
    · have hrs : rs ≠ [] := by
        rintro rfl
        simp at h; omega
      obtain ⟨t, ht, hframe, hout, hin⟩ := ih (s.writeV r (s.mem.read a)) (a + 1) hrs (by omega)
      have hk' : 4096 - a = (4096 - (a + 1)) + 1 := by omega
      have hm : max (a + 1) 4096 = max a 4096 := by omega
      refine ⟨t, ?_, ?_, ?_, ?_⟩
      · rw [State.loadRegs, State.memRead_done s ha]; simp only; rw [ht, hm]
      · rw [hframe]; rfl
      · intro q hq
        rw [hk', List.take_succ_cons, List.mem_cons, not_or] at hq
        rw [hout q hq.2]; simp [hq.1]
      · intro hnd k hk hlt
        rw [List.nodup_cons] at hnd
        cases k with
        | zero =>
          simp only [List.getElem_cons_zero]
          rw [hout r (fun hmem => hnd.1 (List.mem_of_mem_take hmem))]; simp
        | succ k =>
          simp only [List.getElem_cons_succ]
          rw [hin hnd.2 k (by simpa using hk) (by omega)]
          simp [Nat.add_left_comm, Nat.add_comm]
    · refine ⟨s, ?_, rfl, fun _ _ => rfl, fun _ k _ hlt => absurd hlt (by omega)⟩
      have hm : max a 4096 = a := by omega
      rw [State.loadRegs, State.memRead_raised s (by omega), hm]

/-- Everything a run of byte stores can do: it changes memory alone, keeping the canonical form, and
either completes or raises InvalidAddress. -/
theorem State.storeBytes_outcome (s : State) (a : Nat) (bs : List Byte) :
    ∃ m : Memory, (s.mem.wf → m.wf) ∧
      (s.storeBytes a bs = .done () { s with mem := m } ∨
        ∃ d, s.storeBytes a bs = .raised (State.raise { s with mem := m } .invalidAddress d)) := by
  induction bs generalizing s a with
  | nil => exact ⟨s.mem, id, .inl rfl⟩
  | cons b bs ih =>
    by_cases ha : a < 4096
    · obtain ⟨m, hwf, hm⟩ := ih { s with mem := s.mem.write a b } (a + 1)
      refine ⟨m, fun h => hwf (Memory.write_wf b h ha), ?_⟩
      rw [State.storeBytes, State.memWrite_done s b ha]
      exact hm
    · refine ⟨s.mem, id, .inr ⟨a, ?_⟩⟩
      rw [State.storeBytes, State.memWrite_raised s b (by omega)]

/-- Everything a run of register loads can do: it changes listed registers alone and either
completes or raises InvalidAddress. -/
theorem State.loadRegs_outcome (s : State) (a : Nat) (rs : List Reg) :
    ∃ t : State, t = { s with v := t.v } ∧ (∀ r, r ∉ rs → t.readV r = s.readV r) ∧
      (s.loadRegs a rs = .done () t ∨
        ∃ d, s.loadRegs a rs = .raised (t.raise .invalidAddress d)) := by
  induction rs generalizing s a with
  | nil => exact ⟨s, rfl, fun _ _ => rfl, .inl rfl⟩
  | cons r rs ih =>
    by_cases ha : a < 4096
    · obtain ⟨t, hframe, hout, ht⟩ := ih (s.writeV r (s.mem.read a)) (a + 1)
      refine ⟨t, by rw [hframe]; rfl, ?_, ?_⟩
      · intro q hq
        simp only [List.mem_cons, not_or] at hq
        rw [hout q hq.2]; simp [hq.1]
      · rw [State.loadRegs, State.memRead_done s ha]
        exact ht
    · refine ⟨s, rfl, fun _ _ => rfl, .inr ⟨a, ?_⟩⟩
      rw [State.loadRegs, State.memRead_raised s (by omega)]

/-! ### The register lists -/

theorem regsThrough_length (x : Reg) : (regsThrough x).length = x.val + 1 := by
  have := x.isLt
  simp [regsThrough, allRegs]; omega

theorem regsThrough_ne_nil (x : Reg) : regsThrough x ≠ [] := by
  intro h; have := regsThrough_length x; simp [h] at this

theorem allRegs_get (k : Nat) (h : k < allRegs.length) : (allRegs[k]).val = k := by
  have h' : k < 16 := h
  revert h
  revert k
  decide

theorem regsThrough_get (x : Reg) (k : Nat) (h : k < (regsThrough x).length) :
    ((regsThrough x)[k]).val = k := by
  simp only [regsThrough, List.getElem_take]
  exact allRegs_get k _

theorem regsThrough_nodup (x : Reg) : (regsThrough x).Nodup :=
  List.Nodup.sublist (List.take_sublist _ _) (by decide)

theorem mem_regsThrough (x r : Reg) : r ∈ regsThrough x ↔ r.val ≤ x.val := by
  revert x r; decide

end Sys2Proof.Machine
end

