-- ==== Sys2Proof/Laws/Ops.lean ====
section
/-! SUPPORT. One lemma per case of the shared operations: fetch, the call stack, the raise, and the
end of a step (spec/10_state.md R30, R31; spec/20_memory.md R58; spec/60_exceptions.md R214). -/

namespace Sys2Proof.Machine

/-! ### Raising and finishing -/

/-- The datum holds any number below 2^17, so every address and word that can arise. -/
theorem State.raise_datum (s : State) (c : Cause) {d : Nat} (h : d < 2 ^ 17) :
    (s.raise c d).fault.datum.toNat = d := by
  simp only [State.raise, BitVec.toNat_ofNat, Nat.mod_eq_of_lt h]

/-- A raise changes the fault record and the mode alone. -/
theorem State.raise_frame (s : State) (c : Cause) (d : Nat) :
    s.raise c d = { s with fault := (s.raise c d).fault, mode := (s.raise c d).mode } := rfl

/-- A raise with a 16-bit datum, the datum written as a vector. -/
theorem State.raise_word (s : State) (c : Cause) (w : Word) :
    s.raise c w.toNat = { s with fault := ⟨c, w.setWidth 17⟩, mode := .faulted } := by
  simp only [State.raise]
  congr 2
  apply BitVec.eq_of_toNat_eq
  simp

@[simp] theorem Access.finish_done (s : State) : (Access.done () s).finish = .next s.advance := rfl
@[simp] theorem Access.finish_raised (s : State) :
    (Access.raised s : Access Unit).finish = .next s := rfl

@[simp] theorem mapNext_next (f : State → State) (s : State) :
    mapNext f (.next s) = .next (f s) := rfl
@[simp] theorem mapNext_fault (f : State → State) (r : Fault) :
    mapNext f (.fault r) = .fault r := rfl
@[simp] theorem mapNext_refused (f : State → State) (r : Refusal) :
    mapNext f (.refused r) = .refused r := rfl

/-- A mapped outcome is a next state exactly when the outcome is. -/
theorem mapNext_eq_next {f : State → State} {r : Result} {t : State} :
    mapNext f r = .next t ↔ ∃ u, r = .next u ∧ f u = t := by
  cases r <;> simp [mapNext]

theorem mapNext_mapNext (f g : State → State) (r : Result) :
    mapNext f (mapNext g r) = mapNext (fun s => f (g s)) r := by
  cases r <;> rfl

/-! ### Fetch -/

theorem State.fetch_done (s : State) (h : s.pc.toNat ≤ 0xFFE) :
    s.fetch = .done (s.mem.read s.pc.toNat ++ s.mem.read (s.pc.toNat + 1)) s := by
  have : s.pc.toNat + 1 < 4096 := by omega
  simp [State.fetch, State.memReadWord, this]

theorem State.fetch_raised (s : State) (h : 0xFFF ≤ s.pc.toNat) :
    s.fetch = .raised (s.raise .invalidAddress (s.pc.toNat + 1)) := by
  have : ¬(s.pc.toNat + 1 < 4096) := by omega
  simp [State.fetch, State.memReadWord, this]

/-- A fetch that completes leaves the state alone and had a fetchable pc. -/
theorem State.fetch_eq_done {s t : State} {op : Word} (h : s.fetch = .done op t) :
    t = s ∧ s.pc.toNat ≤ 0xFFE := by
  by_cases hp : s.pc.toNat ≤ 0xFFE
  · rw [State.fetch_done s hp] at h
    injection h with _ h2
    exact ⟨h2.symm, hp⟩
  · rw [State.fetch_raised s (by omega)] at h
    cases h

/-- A fetch raises only InvalidAddress(pc + 1). -/
theorem State.fetch_eq_raised {s t : State} (h : s.fetch = .raised t) :
    t = s.raise .invalidAddress (s.pc.toNat + 1) ∧ 0xFFF ≤ s.pc.toNat := by
  by_cases hp : s.pc.toNat ≤ 0xFFE
  · rw [State.fetch_done s hp] at h
    cases h
  · rw [State.fetch_raised s (by omega)] at h
    injection h with h1
    exact ⟨h1.symm, by omega⟩

/-! ### The call stack -/

theorem State.push_done (s : State) (v : Word) (h : s.sp.val < 16) :
    s.push v = .done () { s with
      stack := s.stack.set s.sp.val v, sp := ⟨s.sp.val + 1, Nat.succ_lt_succ h⟩ } := by
  simp [State.push, h]

theorem State.push_full (s : State) (v : Word) (h : s.sp.val = 16) :
    s.push v = .raised (s.raise .stackOverflow s.pc.toNat) := by
  simp [State.push, h]

theorem State.pop_done (s : State) (k : Nat) (hk : k < 16) (h : s.sp.val = k + 1) :
    s.pop = .done s.stack[k] { s with sp := ⟨k, Nat.lt_succ_of_lt hk⟩ } := by
  have h0 : 0 < s.sp.val := by omega
  have hk' : s.sp.val - 1 = k := by omega
  simp only [State.pop, h0, dif_pos, hk']

theorem State.pop_empty (s : State) (h : s.sp.val = 0) :
    s.pop = .raised (s.raise .stackUnderflow s.pc.toNat) := by
  simp [State.pop, h]

end Sys2Proof.Machine
end

