-- ==== Sys2Proof/Laws/Display.lean ====
section
/-! SUPPORT. A draw as one pass over the cells of its set bits (spec/42_display.md R162): which cells
those are, that no two coincide, and what toggling them does to the buffer, VF and dirty. -/

namespace Sys2Proof.Machine

/-- Two indices name the same cell exactly when their rows and columns agree. -/
theorem cellRow_cellCol_inj (j k : Nat) :
    (cellRow j = cellRow k ∧ cellCol j = cellCol k) ↔ j % 2048 = k % 2048 := by
  simp only [cellRow, cellCol, Fin.mk.injEq, fbCells, fbWidth]
  omega

theorem cellCol_lt (k : Nat) : cellCol k < 64 := Nat.mod_lt _ (by decide)

/-- The cell of the display after one toggle. -/
theorem State.cell_fbToggle (s : State) (k j : Nat) :
    (s.fbToggle k).cell j = (s.cell j ^^ decide (j % 2048 = k % 2048)) := by
  have hc := cellCol_lt j
  have hd : decide (j % 2048 = k % 2048) = decide (cellRow j = cellRow k ∧ cellCol j = cellCol k) :=
    decide_eq_decide.2 (cellRow_cellCol_inj j k).symm
  rw [hd]
  simp only [State.cell, State.fbToggle]
  by_cases hr : cellRow j = cellRow k
  · simp [hr, hc, eq_comm]
  · have hne : ¬((cellRow k).val = (cellRow j).val) := fun h => hr (Fin.ext h.symm)
    simp [hr, hne]

@[simp] theorem State.cell_writeV (s : State) (r : Reg) (b : Byte) (k : Nat) :
    (s.writeV r b).cell k = s.cell k := rfl

theorem State.cell_congr {s t : State} (h : t.fb = s.fb) (k : Nat) : t.cell k = s.cell k := by
  simp [State.cell, h]

theorem State.cell_mod (s : State) (k : Nat) : s.cell (k % 2048) = s.cell k := by
  simp [State.cell, cellRow, cellCol]

/-- A cleared display has no set cell. -/
@[simp] theorem State.cell_fbClear (s : State) (k : Nat) : s.fbClear.cell k = false := by
  simp [State.cell]

/-- Two buffers with the same cells are the same buffer. -/
theorem State.fb_ext {s t : State} (h : ∀ k, k < 2048 → t.cell k = s.cell k) : t.fb = s.fb := by
  apply Vector.ext
  intro r hr
  apply BitVec.eq_of_getLsbD_eq
  intro c hc
  have h64 : c < 64 := hc
  have h32 : r < 32 := hr
  have hk : r * 64 + c < 2048 := by omega
  have hrow : cellRow (r * 64 + c) = ⟨r, hr⟩ := by
    simp only [cellRow, Fin.mk.injEq, fbCells, fbWidth]; omega
  have hcol : cellCol (r * 64 + c) = c := by
    simp only [cellCol, fbCells, fbWidth]; omega
  simpa [State.cell, hrow, hcol] using h _ hk

/-! ### Toggling a list of cells -/

/-- One set pixel: its cell is toggled, and VF becomes 1 when the cell was set. -/
def State.plot (s : State) (k : Nat) : State :=
  if s.cell k then (s.fbToggle k).writeV vf 1 else s.fbToggle k

/-- Set pixels one after another. -/
def State.plotAll (s : State) (ks : List Nat) : State := ks.foldl State.plot s

theorem State.plotAll_append (s : State) (ks js : List Nat) :
    s.plotAll (ks ++ js) = (s.plotAll ks).plotAll js := List.foldl_append ..

theorem State.plot_frame (s : State) (k : Nat) :
    s.plot k = { s with v := (s.plot k).v, fb := (s.plot k).fb, dirty := true } := by
  unfold State.plot
  split <;> rfl

theorem State.plotAll_frame (s : State) (ks : List Nat) :
    s.plotAll ks = { s with
      v := (s.plotAll ks).v, fb := (s.plotAll ks).fb, dirty := (s.plotAll ks).dirty } := by
  induction ks generalizing s with
  | nil => rfl
  | cons k ks ih =>
    simp only [State.plotAll, List.foldl_cons] at ih ⊢
    rw [ih (s.plot k), State.plot_frame s k]

@[simp] theorem State.plotAll_mem (s : State) (ks : List Nat) : (s.plotAll ks).mem = s.mem := by
  rw [State.plotAll_frame]

@[simp] theorem State.plotAll_i (s : State) (ks : List Nat) : (s.plotAll ks).i = s.i := by
  rw [State.plotAll_frame]

@[simp] theorem State.plotAll_base (s : State) (ks : List Nat) : (s.plotAll ks).base = s.base := by
  simp [State.base]

theorem State.cell_plot (s : State) (k j : Nat) :
    (s.plot k).cell j = (s.cell j ^^ decide (j % 2048 = k % 2048)) := by
  unfold State.plot
  split <;> simp [State.cell_fbToggle]

theorem State.readV_plot (s : State) (k : Nat) (r : Reg) :
    (s.plot k).readV r = if r = 15 ∧ s.cell k = true then 1 else s.readV r := by
  unfold State.plot
  split
  · next h => simp [h]
  · next h => simp [h]

/-- Toggling cells writes no register but VF. -/
theorem State.readV_plotAll_ne (s : State) (ks : List Nat) {r : Reg} (h : r ≠ 15) :
    (s.plotAll ks).readV r = s.readV r := by
  induction ks generalizing s with
  | nil => rfl
  | cons k ks ih => exact (ih (s.plot k)).trans (by simp [State.readV_plot, h])

theorem State.dirty_plotAll (s : State) (ks : List Nat) :
    (s.plotAll ks).dirty = (s.dirty || !ks.isEmpty) := by
  cases ks with
  | nil => simp [State.plotAll]
  | cons k ks =>
    have h : ∀ (ks : List Nat) (t : State), t.dirty = true → (ks.foldl State.plot t).dirty = true := by
      intro ks
      induction ks with
      | nil => exact fun t h => h
      | cons k ks ih =>
        intro t _
        exact ih _ (by rw [State.plot_frame])
    simp only [State.plotAll, List.foldl_cons, List.isEmpty_cons, Bool.not_false, Bool.or_true]
    exact h ks _ (by rw [State.plot_frame])

/-- Toggling distinct cells: exactly the listed cells change. -/
theorem State.cell_plotAll (s : State) (ks : List Nat) (hnd : (ks.map (· % 2048)).Nodup) (j : Nat) :
    (s.plotAll ks).cell j = (s.cell j ^^ decide (j % 2048 ∈ ks.map (· % 2048))) := by
  induction ks generalizing s with
  | nil => simp [State.plotAll]
  | cons k ks ih =>
    rw [List.map_cons, List.nodup_cons] at hnd
    have := ih (s.plot k) hnd.2
    simp only [State.plotAll, List.foldl_cons] at this ⊢
    rw [this, State.cell_plot]
    by_cases hj : j % 2048 = k % 2048
    · have hn : j % 2048 ∉ ks.map (· % 2048) := by rw [hj]; exact hnd.1
      simp only [hj] at hn ⊢
      simp [hn]
    · simp [hj]

/-- Toggling distinct cells: VF becomes 1 exactly when some listed cell was set. -/
theorem State.readV_plotAll (s : State) (ks : List Nat) (hnd : (ks.map (· % 2048)).Nodup)
    (r : Reg) :
    (s.plotAll ks).readV r =
      if r = 15 ∧ (∃ k ∈ ks, s.cell k = true) then 1 else s.readV r := by
  induction ks generalizing s with
  | nil => simp [State.plotAll]
  | cons k ks ih =>
    rw [List.map_cons, List.nodup_cons] at hnd
    have := ih (s.plot k) hnd.2
    simp only [State.plotAll, List.foldl_cons] at this ⊢
    rw [this, State.readV_plot]
    have hcell : ∀ j ∈ ks, (s.plot k).cell j = s.cell j := by
      intro j hj
      have hne : ¬(j % 2048 = k % 2048) := fun e => hnd.1 (by rw [← e]; exact List.mem_map_of_mem hj)
      simp [State.cell_plot, hne]
    have hex : (∃ j ∈ ks, (s.plot k).cell j = true) ↔ ∃ j ∈ ks, s.cell j = true := by
      constructor <;> rintro ⟨j, hj, h⟩ <;> refine ⟨j, hj, ?_⟩
      · rwa [hcell j hj] at h
      · rwa [hcell j hj]
    simp only [hex]
    by_cases hr : r = 15 <;> by_cases hk : s.cell k = true <;>
      by_cases he : ∃ j ∈ ks, s.cell j = true <;> simp_all

/-! ### A draw is a list of cells -/

/-- The cells of one sprite row's set bits, before the reduction modulo 2048. -/
def rowCells (x y row : Nat) (b : Byte) : List Nat :=
  ([0, 1, 2, 3, 4, 5, 6, 7].filter (spriteBit b)).map (pixelIndex x y row)

theorem State.drawRow_eq (s : State) (x y row : Nat) (b : Byte) :
    s.drawRow x y row b = s.plotAll (rowCells x y row b) := by
  unfold State.drawRow rowCells State.plotAll
  generalize [0, 1, 2, 3, 4, 5, 6, 7] = cols
  induction cols generalizing s with
  | nil => rfl
  | cons c cols ih =>
    rw [List.foldl_cons, ih]
    by_cases hc : spriteBit b c = true
    · simp [hc, State.drawPixel, State.plot]
    · simp [hc, State.drawPixel]

/-- The cells of the listed rows' set bits. -/
def State.spriteCells (s : State) (x y : Nat) (rows : List Nat) : List Nat :=
  rows.flatMap (fun row => rowCells x y row (s.mem.read (s.base + row)))

theorem State.spriteCells_congr {s t : State} (hm : t.mem = s.mem) (hi : t.i = s.i) (x y : Nat)
    (rows : List Nat) : t.spriteCells x y rows = s.spriteCells x y rows := by
  simp [State.spriteCells, State.base, hm, hi]

/-- Rows whose bytes all lie in memory: the draw completes and toggles their cells in order. -/
theorem State.drawRows_done (s : State) (x y : Nat) (rows : List Nat)
    (h : ∀ row ∈ rows, s.base + row < 4096) :
    s.drawRows x y rows = .done () (s.plotAll (s.spriteCells x y rows)) := by
  induction rows generalizing s with
  | nil => rfl
  | cons row rows ih =>
    rw [State.drawRows, State.memRead_done s (h row (by simp))]
    simp only
    rw [State.drawRow_eq, ih _ (fun r hr => by
      rw [State.plotAll_base]; exact h r (List.mem_cons_of_mem _ hr))]
    rw [State.spriteCells_congr (s.plotAll_mem _) (s.plotAll_i _), State.spriteCells,
      State.spriteCells, List.flatMap_cons, State.plotAll_append]

/-- Rows of which the first bad one is `bad`: the rows before it are drawn, then the error names its
address. -/
theorem State.drawRows_raised (s : State) (x y : Nat) (good rest : List Nat) (bad : Nat)
    (h : ∀ row ∈ good, s.base + row < 4096) (hbad : 4096 ≤ s.base + bad) :
    s.drawRows x y (good ++ bad :: rest) = .raised
      ((s.plotAll (s.spriteCells x y good)).raise .invalidAddress (s.base + bad)) := by
  induction good generalizing s with
  | nil =>
    rw [List.nil_append, State.drawRows, State.memRead_raised s hbad]
    rfl
  | cons row good ih =>
    rw [List.cons_append, State.drawRows, State.memRead_done s (h row (by simp))]
    simp only
    rw [State.drawRow_eq, ih _ (fun r hr => by
      rw [State.plotAll_base]; exact h r (List.mem_cons_of_mem _ hr)) (by
      rw [State.plotAll_base]; exact hbad)]
    rw [State.spriteCells_congr (s.plotAll_mem _) (s.plotAll_i _), State.plotAll_base,
      State.spriteCells, State.spriteCells, List.flatMap_cons, State.plotAll_append]

/-- Everything a draw can do: it changes VF, the buffer and dirty alone and either completes or
raises InvalidAddress. -/
theorem State.drawRows_outcome (s : State) (x y : Nat) (rows : List Nat) :
    ∃ t : State, t = { s with v := t.v, fb := t.fb, dirty := t.dirty } ∧
      (∀ r, r ≠ 15 → t.readV r = s.readV r) ∧
      (s.drawRows x y rows = .done () t ∨
        ∃ d, s.drawRows x y rows = .raised (t.raise .invalidAddress d)) := by
  induction rows generalizing s with
  | nil => exact ⟨s, rfl, fun _ _ => rfl, .inl rfl⟩
  | cons row rows ih =>
    by_cases ha : s.base + row < 4096
    · obtain ⟨t, hframe, hout, ht⟩ := ih (s.plotAll (rowCells x y row (s.mem.read (s.base + row))))
      refine ⟨t, ?_, ?_, ?_⟩
      · rw [hframe, State.plotAll_frame]
      · intro r hr
        rw [hout r hr]
        exact State.readV_plotAll_ne s _ hr
      · rw [State.drawRows, State.memRead_done s ha]
        simp only
        rw [State.drawRow_eq]
        exact ht
    · refine ⟨s, rfl, fun _ _ => rfl, .inr ⟨s.base + row, ?_⟩⟩
      rw [State.drawRows, State.memRead_raised s (by omega)]

/-- Which cells a sprite's rows are. -/
theorem State.mem_spriteCells (s : State) (x y : Nat) (rows : List Nat) (k : Nat) :
    k ∈ s.spriteCells x y rows ↔
      ∃ row ∈ rows, ∃ col, col < 8 ∧ spriteBit (s.mem.read (s.base + row)) col = true ∧
        pixelIndex x y row col = k := by
  simp only [State.spriteCells, List.mem_flatMap, rowCells, List.mem_map, List.mem_filter]
  constructor
  · rintro ⟨row, hrow, col, ⟨hcol, hbit⟩, rfl⟩
    refine ⟨row, hrow, col, ?_, hbit, rfl⟩
    revert hcol
    simp only [List.mem_cons, List.not_mem_nil, or_false]
    omega
  · rintro ⟨row, hrow, col, hcol, hbit, rfl⟩
    refine ⟨row, hrow, col, ⟨?_, hbit⟩, rfl⟩
    simp only [List.mem_cons, List.not_mem_nil, or_false]
    omega

/-- The cells of at most 15 rows never coincide: they span less than 2048 before the reduction
(R162). -/
theorem State.spriteCells_nodup (s : State) (x y n : Nat) (hn : n ≤ 16) :
    ((s.spriteCells x y (List.range n)).map (· % 2048)).Nodup := by
  have hrow : ∀ row b, ((rowCells x y row b).map (· % 2048)).Nodup := by
    intro row b
    rw [rowCells, List.map_map]
    refine List.Nodup.map_on ?_ (List.Nodup.filter _ (by decide))
    intro a ha c hc h
    have ha' := List.mem_of_mem_filter ha
    have hc' := List.mem_of_mem_filter hc
    simp only [List.mem_cons, List.not_mem_nil, or_false] at ha' hc'
    simp only [Function.comp_apply, pixelIndex, fbWidth] at h
    omega
  rw [State.spriteCells, List.map_flatMap]
  rw [List.nodup_flatMap]
  refine ⟨fun row _ => hrow row _, ?_⟩
  refine List.Pairwise.imp_of_mem ?_ List.pairwise_lt_range
  intro r q hr hq hlt
  rw [List.mem_range] at hr hq
  intro k hk hk'
  simp only [rowCells, List.mem_map, List.mem_filter] at hk hk'
  obtain ⟨_, ⟨c, ⟨hc, _⟩, rfl⟩, rfl⟩ := hk
  obtain ⟨_, ⟨d, ⟨hd, _⟩, rfl⟩, h⟩ := hk'
  simp only [List.mem_cons, List.not_mem_nil, or_false] at hc hd
  simp only [pixelIndex, fbWidth] at h
  omega

end Sys2Proof.Machine
end

