-- ==== Sys2Proof/Laws/Tick.lean ====
section
/-! SUPPORT. The tick field by field, and its cases (spec/60_exceptions.md R225 to R229,
spec/43_keyboard.md R173, R176). -/

namespace Sys2Proof.Machine

/-! ### The four parts -/

/-- The four parts of a tick, as one update (R226 to R229). -/
theorem State.tickDevices_eq (s : State) :
    s.tickDevices = { s with
      dt := if 0 < s.dt.toNat then s.dt - 1 else s.dt
      st := if 0 < s.st.toNat then s.st - 1 else s.st
      beepOut := if 1 < s.st.toNat then true else if s.st.toNat = 1 then false else s.beepOut
      frameOut := if s.dirty then s.fb else s.frameOut
      dirty := false
      keys := s.keyIn
      isOn := if s.quitIn then false else s.isOn } := by
  unfold State.tickDevices State.inputTick State.displayTick State.soundTick State.delayTick
  by_cases hd : 0 < s.dt.toNat <;> cases hq : s.dirty <;> simp [hd, hq]

/-- A timer counts down by one and stops at 0. -/
theorem timer_floor (b : Byte) : (if 0 < b.toNat then b - 1 else b).toNat = b.toNat - 1 := by
  split
  · bv_omega
  · omega

/-! ### The scan of the key-wait -/

theorem firstPressed_none {keys : BitVec 16} :
    firstPressed keys = none ↔ ∀ k, k < 15 → keys.getLsbD k = false := by
  simp [firstPressed, List.find?_eq_none]

theorem firstPressed_some {keys : BitVec 16} {k : Nat} (h : k < 15) (hk : keys.getLsbD k = true)
    (hlow : ∀ j, j < k → keys.getLsbD j = false) : firstPressed keys = some k := by
  unfold firstPressed
  rw [List.find?_range_eq_some]
  exact ⟨hk, by simpa using h, fun j hj => by simp [hlow j hj]⟩

/-- Whatever the scan finds is one of the codes 0 to 14. -/
theorem firstPressed_lt {keys : BitVec 16} {k : Nat} (h : firstPressed keys = some k) : k < 15 := by
  have := List.mem_of_find?_eq_some h
  simpa using this

/-! ### The whole tick, by mode -/

/-- Everything a tick can do: in RUN and in the terminal modes the four parts and the quit; in
WAIT_KEY the four parts and then the scan. -/
theorem State.tick60_cases (s : State) :
    (∃ x, s.mode = .waitKey x ∧ s.tick60 = s.tickDevices.keyWaitScan x) ∨
    ((∀ x, s.mode ≠ .waitKey x) ∧ s.tick60 =
      if s.tickDevices.isOn then s.tickDevices else { s.tickDevices with mode := .off }) := by
  have hm : s.tickDevices.mode = s.mode := by rw [State.tickDevices_eq]
  unfold State.tick60
  simp only [hm]
  cases h : s.mode with
  | waitKey x => exact .inl ⟨x, rfl, rfl⟩
  | run => exact .inr ⟨by simp, rfl⟩
  | off => exact .inr ⟨by simp, rfl⟩
  | faulted => exact .inr ⟨by simp, rfl⟩

/-- The scan changes V[x], pc and the mode alone. -/
theorem State.keyWaitScan_frame (s : State) (x : Reg) :
    s.keyWaitScan x = { s with
      v := (s.keyWaitScan x).v, pc := (s.keyWaitScan x).pc, mode := (s.keyWaitScan x).mode } := by
  unfold State.keyWaitScan
  split
  · rfl
  · split <;> rfl

/-- What the scan leaves in the registers. -/
theorem State.keyWaitScan_readV_ne (s : State) (x r : Reg) (h : r ≠ x) :
    (s.keyWaitScan x).readV r = s.readV r := by
  unfold State.keyWaitScan
  have hw : ∀ (b : Byte) (m : Mode),
      State.readV { (s.writeV x b).advance with mode := m } r = s.readV r := by
    intro b m
    have : State.readV { (s.writeV x b).advance with mode := m } r = (s.writeV x b).readV r := rfl
    rw [this]; simp [h]
  split
  · exact hw _ _
  · split
    · exact hw _ _
    · rfl

/-- A tick in its entirety changes V, pc and mode only through the scan or the quit. -/
theorem State.tick60_frame (s : State) :
    s.tick60 = { s.tickDevices with
      v := s.tick60.v, pc := s.tick60.pc, mode := s.tick60.mode } := by
  rcases s.tick60_cases with ⟨x, _, h⟩ | ⟨_, h⟩
  · rw [h]
    exact State.keyWaitScan_frame _ x
  · rw [h]; split <;> rfl

/-- The fields a tick leaves alone in every mode. -/
theorem State.tick60_keeps (s : State) :
    s.tick60.mem = s.mem ∧ s.tick60.i = s.i ∧ s.tick60.stack = s.stack ∧ s.tick60.sp = s.sp ∧
    s.tick60.fb = s.fb ∧ s.tick60.fault = s.fault ∧ s.tick60.cycleAcc = s.cycleAcc ∧
    s.tick60.timerAcc = s.timerAcc ∧ s.tick60.deltaUs = s.deltaUs ∧ s.tick60.rndIn = s.rndIn ∧
    s.tick60.samples = s.samples := by
  rw [State.tick60_frame, State.tickDevices_eq]
  simp

/-- The pc and the mode after a tick. -/
theorem State.tick60_pc_mode (s : State) :
    (s.tick60.pc = s.pc ∧ (s.tick60.mode = s.mode ∨ s.tick60.mode = .off)) ∨
    ((∃ x, s.mode = .waitKey x) ∧ s.tick60.pc = s.pc + 2 ∧
      (s.tick60.mode = .off ∨ s.tick60.mode = .run)) := by
  have hm : s.tickDevices.mode = s.mode := by rw [State.tickDevices_eq]
  have hp : s.tickDevices.pc = s.pc := by rw [State.tickDevices_eq]
  rcases s.tick60_cases with ⟨x, hx, h⟩ | ⟨_, h⟩
  · rw [h]
    unfold State.keyWaitScan
    split
    · exact .inr ⟨⟨x, hx⟩, by simp [hp], .inl rfl⟩
    · split
      · exact .inr ⟨⟨x, hx⟩, by simp [hp], .inr rfl⟩
      · exact .inl ⟨hp, .inl hm⟩
  · rw [h]
    split
    · exact .inl ⟨hp, .inl hm⟩
    · exact .inl ⟨hp, .inr rfl⟩

end Sys2Proof.Machine
end

