-- ==== Sys2Proof/Laws/Loop.lean ====
section
/-! SUPPORT. The CPU step and the outer loop, case by case (spec/30_encoding.md R80,
spec/70_reset_and_hazards.md R262). -/

namespace Sys2Proof.Machine

/-! ### The CPU step -/

/-- Everything a CPU step can do: the meaning of the word at pc, or one of two raises. -/
theorem cpuStep_cases (s : State) :
    (∃ op i, s.fetch = .done op s ∧ decode op = .ok i ∧ s.pc.toNat ≤ 0xFFE ∧
      cpuStep s = exec i s) ∨
    (∃ op e, s.fetch = .done op s ∧ decode op = .error e ∧ s.pc.toNat ≤ 0xFFE ∧
      cpuStep s = .next (s.raise .unimplementedOpcode op.toNat)) ∨
    (0xFFF ≤ s.pc.toNat ∧ cpuStep s = .next (s.raise .invalidAddress (s.pc.toNat + 1))) := by
  unfold cpuStep
  cases hf : s.fetch with
  | raised t =>
    obtain ⟨rfl, hp⟩ := State.fetch_eq_raised hf
    exact .inr (.inr ⟨hp, rfl⟩)
  | done op t =>
    obtain ⟨rfl, hp⟩ := State.fetch_eq_done hf
    cases hd : decode op with
    | ok i => exact .inl ⟨op, i, rfl, hd, hp, by simp [hd]⟩
    | error e => exact .inr (.inl ⟨op, e, rfl, hd, hp, by simp [hd]⟩)

/-- The step of a word that decodes. -/
theorem cpuStep_decoded {s : State} {op : Word} {i : Instr} (hf : s.fetch = .done op s)
    (hd : decode op = .ok i) : cpuStep s = exec i s := by
  simp [cpuStep, hf, hd]

/-! ### The gates -/

theorem stepIfRunning_run {s : State} (h : s.mode = .run) : stepIfRunning s = cpuStep s := by
  simp [stepIfRunning, h]

theorem stepIfRunning_wait {s : State} {x : Reg} (h : s.mode = .waitKey x) :
    stepIfRunning s = .next s := by
  simp [stepIfRunning, h]

theorem cycleGate_open {s : State} (h : 1666 < s.cycleAcc) :
    cycleGate s = mapNext State.clearCycle (stepIfRunning s) := by
  simp [cycleGate, h]

theorem cycleGate_closed {s : State} (h : s.cycleAcc ≤ 1666) : cycleGate s = .next s := by
  simp [cycleGate, Nat.not_lt.2 h]

theorem State.tickGate_open {s : State} (h : s.active = true) (ht : 16666 < s.timerAcc) :
    s.tickGate = { s.tick60 with timerAcc := s.tick60.timerAcc % 16666 } := by
  simp [State.tickGate, h, ht]

theorem State.tickGate_closed {s : State} (h : s.active = false ∨ s.timerAcc ≤ 16666) :
    s.tickGate = s := by
  rcases h with h | h
  · simp [State.tickGate, h]
  · simp [State.tickGate, Nat.not_lt.2 h]

theorem State.active_iff (s : State) :
    s.active = true ↔ s.mode = .run ∨ ∃ x, s.mode = .waitKey x := by
  unfold State.active
  cases s.mode <;> simp

/-! ### The iteration -/

theorem step_active {s : State} (h : s.active = true) :
    step s = mapNext (fun t => t.tickGate.nextSamples) (cycleGate s.addTime) := by
  unfold step outerLoop iteration
  unfold State.active at h
  cases hm : s.mode <;> simp [hm] at h ⊢

theorem step_off {s : State} (h : s.mode = .off) : step s = .fault .machineOff := by
  simp [step, outerLoop, h]

theorem step_faulted {s : State} (h : s.mode = .faulted) :
    step s = .fault (.machineFaulted s.fault) := by
  simp [step, outerLoop, h]

/-- Everything an iteration can do: the core is active, and its next state is the tick gate and the
next samples after (a) nothing but time, in which no cycle gate was due or the core waits, or (b) one
CPU step of the state with the time added. -/
theorem step_cases {s t : State} (h : step s = .next t) :
    s.active = true ∧
    ((s.addTime.cycleAcc ≤ 1666 ∧ t = s.addTime.tickGate.nextSamples) ∨
     ((∃ x, s.mode = .waitKey x) ∧ t = s.addTime.clearCycle.tickGate.nextSamples) ∨
     (s.mode = .run ∧ ∃ u, cpuStep s.addTime = .next u ∧
        t = u.clearCycle.tickGate.nextSamples)) := by
  have hact : s.active = true := by
    rw [State.active_iff]
    cases hm : s.mode with
    | run => exact .inl rfl
    | waitKey x => exact .inr ⟨x, rfl⟩
    | off => rw [step_off hm] at h; cases h
    | faulted => rw [step_faulted hm] at h; cases h
  refine ⟨hact, ?_⟩
  rw [step_active hact] at h
  obtain ⟨u, hu, rfl⟩ := mapNext_eq_next.1 h
  by_cases hc : s.addTime.cycleAcc ≤ 1666
  · rw [cycleGate_closed hc] at hu
    cases hu
    exact .inl ⟨hc, rfl⟩
  · rw [cycleGate_open (Nat.not_le.1 hc)] at hu
    obtain ⟨w, hw, rfl⟩ := mapNext_eq_next.1 hu
    rcases (State.active_iff s).1 hact with hr | ⟨x, hx⟩
    · rw [stepIfRunning_run (by simpa using hr)] at hw
      exact .inr (.inr ⟨hr, w, hw, rfl⟩)
    · rw [stepIfRunning_wait (x := x) (by simpa using hx)] at hw
      cases hw
      exact .inr (.inl ⟨⟨x, hx⟩, rfl⟩)

end Sys2Proof.Machine
end

