-- ==== Sys2Proof/Laws/PerInstr.lean ====
section
/-! SUPPORT. Statements made once per instruction: the word the encoder writes has its row's fixed
bits (spec/30_encoding.md R86). -/

namespace Sys2Proof.Laws

/-! ### The fixed bits of a word of each format -/

theorem wordAddr_mask (m : Nibble) (nnn : Addr) :
    wordAddr m nnn &&& 0xF000#16 = wordAddr m 0 := by
  apply BitVec.eq_of_getLsbD_eq
  intro k hk
  simp only [wordAddr, BitVec.getLsbD_and, BitVec.getLsbD_append]
  interval_cases k <;> simp

theorem wordRegImm_mask (m : Nibble) (x : Reg) (nn : Byte) :
    wordRegImm m x nn &&& 0xF000#16 = wordRegImm m 0 0 := by
  apply BitVec.eq_of_getLsbD_eq
  intro k hk
  simp only [wordRegImm, BitVec.getLsbD_and, BitVec.getLsbD_append]
  interval_cases k <;> simp [regNibble]

theorem wordRegImm_maskFn (m : Nibble) (x : Reg) (nn : Byte) :
    wordRegImm m x nn &&& 0xF0FF#16 = wordRegImm m 0 nn := by
  apply BitVec.eq_of_getLsbD_eq
  intro k hk
  simp only [wordRegImm, BitVec.getLsbD_and, BitVec.getLsbD_append]
  interval_cases k <;> simp [regNibble]

theorem wordRegReg_mask (m : Nibble) (x y : Reg) (n : Nibble) :
    wordRegReg m x y n &&& 0xF00F#16 = wordRegReg m 0 0 n := by
  apply BitVec.eq_of_getLsbD_eq
  intro k hk
  simp only [wordRegReg, BitVec.getLsbD_and, BitVec.getLsbD_append]
  interval_cases k <;> simp [regNibble]

namespace RowMatch

/-- The encoder's word of `i` agrees with its row of R86: `word & mask = match`. -/
def Statement (i : Instr) : Prop := encode i &&& opcodeMask i = opcodeMatch i

theorem cls : Statement .cls := rfl
theorem ret : Statement .ret := rfl
theorem sysAddr (nnn : Addr) : Statement (.sysAddr nnn) := (wordAddr_mask _ nnn).trans rfl
theorem jpAddr (nnn : Addr) : Statement (.jpAddr nnn) := (wordAddr_mask _ nnn).trans rfl
theorem callAddr (nnn : Addr) : Statement (.callAddr nnn) := (wordAddr_mask _ nnn).trans rfl
theorem seByte (x : Reg) (nn : Byte) : Statement (.seByte x nn) := (wordRegImm_mask _ x nn).trans rfl
theorem sneByte (x : Reg) (nn : Byte) : Statement (.sneByte x nn) := (wordRegImm_mask _ x nn).trans rfl
theorem seReg (x : Reg) (y : Reg) : Statement (.seReg x y) := (wordRegReg_mask _ x y _).trans rfl
theorem ldByte (x : Reg) (nn : Byte) : Statement (.ldByte x nn) := (wordRegImm_mask _ x nn).trans rfl
theorem addByte (x : Reg) (nn : Byte) : Statement (.addByte x nn) := (wordRegImm_mask _ x nn).trans rfl
theorem ldReg (x : Reg) (y : Reg) : Statement (.ldReg x y) := (wordRegReg_mask _ x y _).trans rfl
theorem orReg (x : Reg) (y : Reg) : Statement (.orReg x y) := (wordRegReg_mask _ x y _).trans rfl
theorem andReg (x : Reg) (y : Reg) : Statement (.andReg x y) := (wordRegReg_mask _ x y _).trans rfl
theorem xorReg (x : Reg) (y : Reg) : Statement (.xorReg x y) := (wordRegReg_mask _ x y _).trans rfl
theorem addReg (x : Reg) (y : Reg) : Statement (.addReg x y) := (wordRegReg_mask _ x y _).trans rfl
theorem subReg (x : Reg) (y : Reg) : Statement (.subReg x y) := (wordRegReg_mask _ x y _).trans rfl
theorem shr (x : Reg) (y : Reg) : Statement (.shr x y) := (wordRegReg_mask _ x y _).trans rfl
theorem subnReg (x : Reg) (y : Reg) : Statement (.subnReg x y) := (wordRegReg_mask _ x y _).trans rfl
theorem shl (x : Reg) (y : Reg) : Statement (.shl x y) := (wordRegReg_mask _ x y _).trans rfl
theorem sneReg (x : Reg) (y : Reg) : Statement (.sneReg x y) := (wordRegReg_mask _ x y _).trans rfl
theorem ldIAddr (nnn : Addr) : Statement (.ldIAddr nnn) := (wordAddr_mask _ nnn).trans rfl
theorem jpV0Addr (nnn : Addr) : Statement (.jpV0Addr nnn) := (wordAddr_mask _ nnn).trans rfl
theorem rndByte (x : Reg) (nn : Byte) : Statement (.rndByte x nn) := (wordRegImm_mask _ x nn).trans rfl
theorem drw (x : Reg) (y : Reg) (n : Nibble) : Statement (.drw x y n) := (wordRegImm_mask _ x _).trans rfl
theorem skp (x : Reg) : Statement (.skp x) := (wordRegImm_maskFn _ x _).trans rfl
theorem sknp (x : Reg) : Statement (.sknp x) := (wordRegImm_maskFn _ x _).trans rfl
theorem ldVxDt (x : Reg) : Statement (.ldVxDt x) := (wordRegImm_maskFn _ x _).trans rfl
theorem ldVxK (x : Reg) : Statement (.ldVxK x) := (wordRegImm_maskFn _ x _).trans rfl
theorem ldDtVx (x : Reg) : Statement (.ldDtVx x) := (wordRegImm_maskFn _ x _).trans rfl
theorem ldStVx (x : Reg) : Statement (.ldStVx x) := (wordRegImm_maskFn _ x _).trans rfl
theorem addIVx (x : Reg) : Statement (.addIVx x) := (wordRegImm_maskFn _ x _).trans rfl
theorem ldFVx (x : Reg) : Statement (.ldFVx x) := (wordRegImm_maskFn _ x _).trans rfl
theorem ldBVx (x : Reg) : Statement (.ldBVx x) := (wordRegImm_maskFn _ x _).trans rfl
theorem ldMemVx (x : Reg) : Statement (.ldMemVx x) := (wordRegImm_maskFn _ x _).trans rfl
theorem ldVxMem (x : Reg) : Statement (.ldVxMem x) := (wordRegImm_maskFn _ x _).trans rfl

end RowMatch

end Sys2Proof.Laws
end

