-- ==== Sys2Proof/Machine/Assembly.lean ====
section
/-! DEFINITION. The notation of programs (spec/30_encoding.md R90, R91): the text of an instruction,
the data directives, and the image a source gives. No part of the machine reads it. -/

namespace Sys2Proof.Machine

/-- One hexadecimal digit, as the spec writes it. -/
def hexDigit (d : Fin 16) : Char :=
  ['0', '1', '2', '3', '4', '5', '6', '7', '8', '9', 'A', 'B', 'C', 'D', 'E', 'F'][d.val]'d.isLt

/-- The last `n` hexadecimal digits of a number, the highest first. -/
def hexDigits : Nat → Nat → List Char
  | 0, _ => []
  | n + 1, k => hexDigits n (k / 16) ++ [hexDigit (Fin.ofNat 16 k)]

/-- A number, written 0x.. with `n` digits (R90). -/
def numberText (n k : Nat) : String := "0x" ++ String.ofList (hexDigits n k)

/-- `Vx`: one hexadecimal digit after `V` (R90). -/
def regText (x : Reg) : String := "V" ++ String.ofList [hexDigit x]

def addrText (nnn : Addr) : String := numberText 3 nnn.toNat
def byteText (nn : Byte) : String := numberText 2 nn.toNat

/-- `MNEMONIC operand` (R90). -/
def line1 (m a : String) : String := m ++ " " ++ a
/-- `MNEMONIC operand, operand` (R90). -/
def line2 (m a b : String) : String := m ++ " " ++ a ++ ", " ++ b

/-- The text of an instruction (R86, R90); SHR and SHL are written without Y whatever Y is. -/
def instrText : Instr → String
  | .cls => "CLS"
  | .ret => "RET"
  | .sysAddr nnn => line1 "SYS" (addrText nnn)
  | .jpAddr nnn => line1 "JP" (addrText nnn)
  | .callAddr nnn => line1 "CALL" (addrText nnn)
  | .seByte x nn => line2 "SE" (regText x) (byteText nn)
  | .sneByte x nn => line2 "SNE" (regText x) (byteText nn)
  | .seReg x y => line2 "SE" (regText x) (regText y)
  | .ldByte x nn => line2 "LD" (regText x) (byteText nn)
  | .addByte x nn => line2 "ADD" (regText x) (byteText nn)
  | .ldReg x y => line2 "LD" (regText x) (regText y)
  | .orReg x y => line2 "OR" (regText x) (regText y)
  | .andReg x y => line2 "AND" (regText x) (regText y)
  | .xorReg x y => line2 "XOR" (regText x) (regText y)
  | .addReg x y => line2 "ADD" (regText x) (regText y)
  | .subReg x y => line2 "SUB" (regText x) (regText y)
  | .shr x _ => line1 "SHR" (regText x)
  | .subnReg x y => line2 "SUBN" (regText x) (regText y)
  | .shl x _ => line1 "SHL" (regText x)
  | .sneReg x y => line2 "SNE" (regText x) (regText y)
  | .ldIAddr nnn => line2 "LD" "I" (addrText nnn)
  | .jpV0Addr nnn => line2 "JP" "V0" (addrText nnn)
  | .rndByte x nn => line2 "RND" (regText x) (byteText nn)
  | .drw x y n => line2 "DRW" (regText x) (regText y) ++ ", " ++ numberText 1 n.toNat
  | .skp x => line1 "SKP" (regText x)
  | .sknp x => line1 "SKNP" (regText x)
  | .ldVxDt x => line2 "LD" (regText x) "DT"
  | .ldVxK x => line2 "LD" (regText x) "K"
  | .ldDtVx x => line2 "LD" "DT" (regText x)
  | .ldStVx x => line2 "LD" "ST" (regText x)
  | .addIVx x => line2 "ADD" "I" (regText x)
  | .ldFVx x => line2 "LD" "F" (regText x)
  | .ldBVx x => line2 "LD" "B" (regText x)
  | .ldMemVx x => line2 "LD" "[I]" (regText x)
  | .ldVxMem x => line2 "LD" (regText x) "[I]"

/-- One line of a source: an instruction or a data directive (R91). -/
inductive SourceLine
  /-- one instruction, of two bytes -/
  | instr (i : Instr)
  /-- `DB b, b, ...` -/
  | db (bytes : List Byte)
  /-- `DW w`, the high byte first -/
  | dw (w : Word)
deriving DecidableEq, Repr

/-- The bytes a line places (R59, R91). -/
def sourceBytes : SourceLine → List Byte
  | .instr i => [highByte (encode i), lowByte (encode i)]
  | .db bytes => bytes
  | .dw w => [highByte w, lowByte w]

/-- The image a source gives, for `State.powerOn`. -/
def sourceImage (ls : List SourceLine) : List Byte := ls.flatMap sourceBytes

end Sys2Proof.Machine
end

