-- ==== Sys2Proof/Tests/Slice0.lean ====
section
/-! SUPPORT. Tests on fixed values. Every expected value is from spec/95_test_vectors.md (the section
or program is named) or computed by hand from the rule named; no test looks at a field a free value
decides. The last part shows, for every obligation with hypotheses, values that meet them. -/

namespace Sys2Proof.Tests

open Sys2Proof Sys2Proof.Machine

/-- The next state of an outcome, where there is one. -/
def nextOf : Result → Option State
  | .next s => some s
  | .fault _ | .refused _ => none

/-- The fault of an outcome, where it is one. -/
def stopOf : Result → Option Fault
  | .fault r => some r
  | .next _ | .refused _ => none

/-- The core at `pc` with some registers set and some bytes of memory from `a` on. -/
def core (pc : Word) (vs : List (Reg × Byte)) (a : Nat := 0x300) (bytes : List Byte := []) : State :=
  vs.foldl (fun s p => s.writeV p.1 p.2)
    { State.reset with pc := pc, i := BitVec.ofNat 16 a, mem := State.reset.mem.writeAll a bytes }

/-- What a function shows of the state after an instruction. -/
def after {α : Type} (i : Instr) (s : State) (f : State → α) : Option α :=
  (nextOf (exec i s)).map f

/-- What a function shows of the state after one iteration. -/
def afterStep {α : Type} (s : State) (f : State → α) : Option α := (nextOf (step s)).map f

/-- The cells of the display that are set, ascending, among the given ones. -/
def setCells (s : State) (ks : List Nat) : List Nat := ks.filter s.cell

/-! ### Well-formedness: one refused term per check -/

theorem test_wf_sys_not_cls : (Instr.sysAddr 0x0E0).wf = false := by decide
theorem test_wf_sys_not_ret : (Instr.sysAddr 0x0EE).wf = false := by decide
theorem test_wf_sys_other : (Instr.sysAddr 0x0E1).wf = true := by decide

/-! ### Decoding, each word written out from its row of 30_encoding.md R86 (and 95, 2.1) -/

theorem test_decode_system :
    decode 0b0000000011100000#16 = .ok .cls ∧ decode 0b0000000011101110#16 = .ok .ret ∧
    decode 0b0000111011100000#16 = .ok (.sysAddr 0xEE0) ∧ decode 0x0000#16 = .ok (.sysAddr 0) ∧
    decode 0x00E1#16 = .ok (.sysAddr 0x0E1) ∧ decode 0x01E0#16 = .ok (.sysAddr 0x1E0) := by decide
theorem test_decode_jumps :
    decode 0b0001111111111111#16 = .ok (.jpAddr 0xFFF) ∧
    decode 0b0010101010111100#16 = .ok (.callAddr 0xABC) ∧
    decode 0b1011111111111111#16 = .ok (.jpV0Addr 0xFFF) := by decide
theorem test_decode_skips :
    decode 0b0011101000000000#16 = .ok (.seByte 0xA 0x00) ∧
    decode 0b0100111111111111#16 = .ok (.sneByte 0xF 0xFF) ∧
    decode 0b0101101010110000#16 = .ok (.seReg 0xA 0xB) ∧
    decode 0b1001101010110000#16 = .ok (.sneReg 0xA 0xB) := by decide
theorem test_decode_immediates :
    decode 0b0110111100000001#16 = .ok (.ldByte 0xF 0x01) ∧
    decode 0b0111000000000000#16 = .ok (.addByte 0x0 0x00) ∧
    decode 0b1100000011111111#16 = .ok (.rndByte 0x0 0xFF) ∧
    decode 0b1010000000000000#16 = .ok (.ldIAddr 0x000) := by decide
theorem test_decode_registers :
    decode 0b1000101010110000#16 = .ok (.ldReg 0xA 0xB) ∧
    decode 0b1000101010110001#16 = .ok (.orReg 0xA 0xB) ∧
    decode 0b1000101010110010#16 = .ok (.andReg 0xA 0xB) ∧
    decode 0b1000101010110011#16 = .ok (.xorReg 0xA 0xB) ∧
    decode 0b1000101010110100#16 = .ok (.addReg 0xA 0xB) ∧
    decode 0b1000101010110101#16 = .ok (.subReg 0xA 0xB) ∧
    decode 0b1000101010110110#16 = .ok (.shr 0xA 0xB) ∧
    decode 0b1000101010110111#16 = .ok (.subnReg 0xA 0xB) ∧
    decode 0b1000101010111110#16 = .ok (.shl 0xA 0xB) := by decide
theorem test_decode_draw_and_keys :
    decode 0b1101101010111111#16 = .ok (.drw 0xA 0xB 15) ∧
    decode 0b1110000110011110#16 = .ok (.skp 1) ∧
    decode 0b1110000110100001#16 = .ok (.sknp 1) := by decide
theorem test_decode_functions :
    decode 0b1111000100000111#16 = .ok (.ldVxDt 1) ∧ decode 0b1111000100001010#16 = .ok (.ldVxK 1) ∧
    decode 0b1111000100010101#16 = .ok (.ldDtVx 1) ∧ decode 0b1111000100011000#16 = .ok (.ldStVx 1) ∧
    decode 0b1111000100011110#16 = .ok (.addIVx 1) ∧ decode 0b1111000100101001#16 = .ok (.ldFVx 1) ∧
    decode 0b1111000100110011#16 = .ok (.ldBVx 1) ∧ decode 0b1111000101010101#16 = .ok (.ldMemVx 1) ∧
    decode 0b1111000101100101#16 = .ok (.ldVxMem 1) := by decide
/-- 95, 2.1: the "fault 2" words of families 5, 8, 9, E and F. -/
theorem test_decode_rejects :
    ([0x5AB7, 0x5001, 0x5FFF, 0x8AB8, 0x8AB9, 0x8ABA, 0x8ABB, 0x8ABC, 0x8ABD, 0x8ABF, 0x9AB1,
      0xE19F, 0xE100, 0xE1A0, 0xE09D, 0xF100, 0xF175, 0xF185, 0xF130, 0xF1FF, 0xF156, 0xF11F]
      : List Word).all (fun op => decode op == .error (.unimplementedOpcode op)) = true := by decide
/-- R81, R59: two bytes, the high one first, and the rest untouched. -/
theorem test_decode_bytes : decodeBytes [0x12, 0x34, 0x56] = .ok (.jpAddr 0x234, [0x56]) := by decide
theorem test_decode_truncated : decodeBytes [0x12] = .error .truncated := by decide
theorem test_encode_fields :
    encode (.drw 0xA 0xB 15) = 0xDABF#16 ∧ encode (.sneByte 0xF 0x01) = 0x4F01#16 ∧
    encode (.shl 3 0xA) = 0x83AE#16 ∧ encode (.jpV0Addr 0x30F) = 0xB30F#16 := by decide
theorem test_decodeTableWord :
    decodeTableWord 16 0xF265 = some (.ldVxMem 2) ∧ decodeTableWord 16 0x5AB7 = none := by decide

/-- 95, S1: the listing of the source's own scenario gives its image. -/
theorem test_source_image :
    sourceImage [.instr (.ldByte 0 5), .instr (.ldByte 1 3), .instr (.addReg 0 1), .dw 0x1200] =
      [0x60, 0x05, 0x61, 0x03, 0x80, 0x14, 0x12, 0x00] := by decide
theorem test_instr_text :
    instrText (.drw 10 11 15) = "DRW VA, VB, 0xF" ∧ instrText (.ldIAddr 0x20C) = "LD I, 0x20C" ∧
    instrText (.shl 3 10) = "SHL V3" := by decide

/-! ### Control flow (95, 2.3) -/

theorem test_jump_to_self : after (.jpAddr 0x206) (core 0x206 []) (·.pc) = some 0x206 := by decide
theorem test_call :
    after (.callAddr 0x20E) (core 0x204 []) (fun s => (s.pc, s.sp.val, s.stack[0])) =
      some (0x20E, 1, 0x206) := by decide
theorem test_call_full :
    after (.callAddr 0x300) { core 0x200 [] with sp := 16 } (fun s => (s.pc, s.sp.val, s.fault)) =
      some (0x200, 16, ⟨.stackOverflow, 0x200⟩) := by decide
theorem test_ret :
    after .ret { core 0x210 [] with sp := 1, stack := Vector.replicate 16 0x206 }
      (fun s => (s.pc, s.sp.val, s.stack[0])) = some (0x206, 0, 0x206) := by decide
theorem test_ret_empty :
    after .ret (core 0x210 []) (fun s => (s.pc, s.mode, s.fault)) =
      some (0x210, .faulted, ⟨.stackUnderflow, 0x210⟩) := by decide
theorem test_se_byte :
    after (.seByte 1 0) (core 0x208 []) (·.pc) = some 0x20C ∧
    after (.seByte 1 0) (core 0x208 [(1, 1)]) (·.pc) = some 0x20A := by decide
theorem test_sne_byte :
    after (.sneByte 2 7) (core 0x300 [(2, 7)]) (·.pc) = some 0x302 ∧
    after (.sneByte 2 7) (core 0x300 [(2, 8)]) (·.pc) = some 0x304 := by decide
theorem test_se_reg :
    after (.seReg 3 4) (core 0x220 [(3, 0x2A), (4, 0x2A)]) (·.pc) = some 0x224 ∧
    after (.seReg 3 4) (core 0x220 [(3, 1), (4, 2)]) (·.pc) = some 0x222 := by decide
theorem test_sne_reg :
    after (.sneReg 0 1) (core 0x240 [(0, 1), (1, 2)]) (·.pc) = some 0x244 ∧
    after (.sneReg 0 1) (core 0x240 [(0, 2), (1, 2)]) (·.pc) = some 0x242 := by decide
theorem test_jp_v0 :
    after (.jpV0Addr 0xFFF) (core 0x200 [(0, 0xFF)]) (·.pc) = some 0x10FE ∧
    after (.jpV0Addr 0x300) (core 0x200 [(0, 0xFF), (3, 0)]) (·.pc) = some 0x3FF := by decide
theorem test_sys :
    after (.sysAddr 0x0E1) (core 0x202 []) (fun s => (s.pc, s.fault)) =
      some (0x202, ⟨.unimplementedOpcode, 0x0E1⟩) := by decide

/-! ### Load, arithmetic, logic, shift, random (95, 2.4) -/

theorem test_ld_byte : after (.ldByte 15 0xAB) (core 0x200 []) (·.readV 15) = some 0xAB := by decide
theorem test_add_byte :
    after (.addByte 1 1) (core 0x200 [(1, 0xFF)]) (fun s => (s.readV 1, s.readV 15)) =
      some (0, 0) := by decide
theorem test_ld_reg : after (.ldReg 0xA 15) (core 0x200 [(15, 1)]) (·.readV 0xA) = some 1 := by decide
theorem test_or :
    after (.orReg 0 1) (core 0x200 [(0, 0xF0), (1, 0x0F), (15, 1)])
      (fun s => (s.readV 0, s.readV 15)) = some (0xFF, 1) := by decide
theorem test_and :
    after (.andReg 0 1) (core 0x200 [(0, 0xF3), (1, 0x3C)]) (·.readV 0) = some 0x30 := by decide
theorem test_xor :
    after (.xorReg 0 1) (core 0x200 [(0, 0xFF), (1, 0x0F)]) (·.readV 0) = some 0xF0 := by decide
theorem test_add_carry :
    after (.addReg 0 1) (core 0x200 [(0, 200), (1, 100)]) (fun s => (s.readV 0, s.readV 15)) =
      some (44, 1) := by decide
theorem test_add_flag_register :
    after (.addReg 15 1) (core 0x200 [(15, 0xFF), (1, 1)]) (·.readV 15) = some 1 ∧
    after (.addReg 0 15) (core 0x200 [(0, 0x10), (15, 1)]) (fun s => (s.readV 0, s.readV 15)) =
      some (0x11, 0) := by decide
theorem test_sub :
    after (.subReg 0 1) (core 0x200 [(0, 3), (1, 5)]) (fun s => (s.readV 0, s.readV 15)) =
      some (0xFE, 0) ∧
    after (.subReg 0 1) (core 0x200 [(0, 5), (1, 5)]) (fun s => (s.readV 0, s.readV 15)) =
      some (0, 1) := by decide
theorem test_sub_flag_register :
    after (.subReg 15 1) (core 0x200 [(15, 3), (1, 5)]) (·.readV 15) = some 0 := by decide
theorem test_subn :
    after (.subnReg 0 1) (core 0x200 [(0, 3), (1, 5)]) (fun s => (s.readV 0, s.readV 15)) =
      some (2, 1) ∧
    after (.subnReg 0 1) (core 0x200 [(0, 1), (1, 0)]) (fun s => (s.readV 0, s.readV 15)) =
      some (0xFF, 0) := by decide
theorem test_shr :
    after (.shr 2 7) (core 0x200 [(2, 5), (7, 0xFF)])
      (fun s => (s.readV 2, s.readV 7, s.readV 15)) = some (2, 0xFF, 1) := by decide
theorem test_shr_flag_register :
    after (.shr 15 0) (core 0x200 [(15, 2)]) (·.readV 15) = some 0 := by decide
theorem test_shl :
    after (.shl 3 0) (core 0x200 [(3, 0xC1)]) (fun s => (s.readV 3, s.readV 15)) =
      some (0x82, 1) ∧
    after (.shl 3 0) (core 0x200 [(3, 0x80)]) (fun s => (s.readV 3, s.readV 15)) =
      some (0, 0) := by decide
theorem test_rnd :
    after (.rndByte 1 0x0F) { core 0x200 [] with rndIn := 0xA7 } (·.readV 1) = some 0x07 := by decide

/-! ### Display (95, 2.5 and S9) -/

theorem test_cls :
    after .cls { core 0x200 [] with fb := Vector.replicate 32 0xFF }
      (fun s => (s.fb == Vector.replicate 32 0, s.dirty, s.pc)) =
      some (true, true, 0x202) := by decide
theorem test_draw_bit_order :
    after (.drw 0 1 1) (core 0x200 [(0, 5), (1, 2)] 0x300 [0xC0])
      (fun s => setCells s [132, 133, 134, 135]) = some [133, 134] := by decide
/-- 95, P4: the combined wrap of a sprite's second row at (60, 30). -/
theorem test_draw_wraps :
    after (.drw 0 1 2) (core 0x200 [(0, 60), (1, 30)] 0x300 [0x00, 0x81])
      (fun s => (setCells s [0, 3, 1987, 2044], s.readV 15)) = some ([3, 2044], 0) := by decide
theorem test_draw_collision :
    after (.drw 0 0 1) { core 0x200 [] 0x300 [0xFF] with fb := Vector.replicate 32 8 }
      (fun s => (setCells s [0, 1, 2, 3, 4, 5, 6, 7, 8], s.readV 15)) =
      some ([0, 1, 2, 4, 5, 6, 7], 1) := by decide
theorem test_draw_reads_vf_first :
    after (.drw 15 1 1) (core 0x200 [(15, 4)] 0x300 [0x80]) (fun s => (s.cell 4, s.readV 15)) =
      some (true, 0) := by decide
theorem test_draw_past_memory :
    after (.drw 0 1 2) (core 0x200 [] 0xFFF [0x80]) (fun s => (s.cell 0, s.pc, s.fault)) =
      some (true, 0x200, ⟨.invalidAddress, 0x1000⟩) := by decide
theorem test_draw_nothing :
    after (.drw 0 0 0) (core 0x200 [(15, 9)] 0x1000)
      (fun s => (s.readV 15, s.dirty, s.pc)) = some (0, false, 0x202) := by decide

/-! ### Keyboard (95, 2.6) -/

theorem test_skp :
    after (.skp 4) { core 0x230 [(4, 10)] with keys := 0x400 } (·.pc) = some 0x234 ∧
    after (.skp 4) (core 0x230 [(4, 10)]) (·.pc) = some 0x232 := by decide
theorem test_sknp :
    after (.sknp 4) { core 0x230 [(4, 10)] with keys := 0x400 } (·.pc) = some 0x232 ∧
    after (.sknp 4) (core 0x230 [(4, 10)]) (·.pc) = some 0x234 := by decide
theorem test_key_wait_begins :
    after (.ldVxK 3) (core 0x240 []) (fun s => (s.mode, s.pc)) =
      some (.waitKey 3, 0x240) := by decide
/-- The core waiting for a key with destination V3. -/
def waiting (keyIn : BitVec 16) : State := { core 0x240 [] with mode := .waitKey 3, keyIn := keyIn }
theorem test_key_wait_ignores_key_15 :
    ((waiting 0x8000).tick60.mode, (waiting 0x8000).tick60.keys) =
      (.waitKey 3, (0x8000 : BitVec 16)) := by decide
theorem test_key_wait_takes_lowest :
    ((waiting 0x0280).tick60.mode, (waiting 0x0280).tick60.readV 3, (waiting 0x0280).tick60.pc) =
      (.run, (7 : Byte), (0x242 : Word)) := by decide
theorem test_key_wait_key_14 : (waiting 0xC000).tick60.readV 3 = 14 := by decide
theorem test_key_wait_broken :
    ({ waiting 4 with quitIn := true } : State).tick60.mode = .off := by decide

/-! ### Timers and ticks (95, 2.7) -/

theorem test_ld_vx_dt :
    after (.ldVxDt 5) { core 0x200 [] with dt := 0x2C } (fun s => (s.readV 5, s.dt)) =
      some (0x2C, 0x2C) := by decide
theorem test_ld_dt_vx : after (.ldDtVx 0) (core 0x200 [(0, 3)]) (·.dt) = some 3 := by decide
theorem test_ld_st_vx :
    after (.ldStVx 2) (core 0x200 [(2, 2)]) (fun s => (s.st, s.beepOut)) = some (2, false) := by decide
/-- A tick's effect on the beeper and ST. -/
def beep (st : Byte) (on : Bool) : Bool × Byte :=
  let t := ({ State.reset with st := st, beepOut := on } : State).tick60
  (t.beepOut, t.st)
theorem test_sound_tick :
    beep 2 false = (true, 1) ∧ beep 1 true = (false, 0) ∧ beep 1 false = (false, 0) ∧
    beep 0 true = (true, 0) ∧ beep 0 false = (false, 0) := by decide
theorem test_delay_tick :
    ({ State.reset with dt := 1 } : State).tick60.dt = 0 ∧ State.reset.tick60.dt = 0 := by decide
theorem test_display_tick :
    ({ State.reset with dirty := true, fb := Vector.replicate 32 5 } : State).tick60.frameOut[31] = 5 ∧
    ({ State.reset with fb := Vector.replicate 32 5 } : State).tick60.frameOut[31] = 0 := by decide
theorem test_quit_tick :
    (fun t : State => (t.isOn, t.mode)) ({ State.reset with quitIn := true } : State).tick60 =
      (false, .off) := by decide

/-! ### Index register and memory (95, 2.8) -/

theorem test_ld_i : after (.ldIAddr 0xFFF) (core 0x200 []) (·.i) = some 0xFFF := by decide
theorem test_add_i :
    after (.addIVx 0) { core 0x200 [(0, 2)] with i := 0xFFFF } (·.i) = some 1 ∧
    after (.addIVx 0) { core 0x200 [(0, 0xFF)] with i := 0xFFF } (fun s => (s.i, s.readV 15)) =
      some (0x10FE, 0) := by decide
theorem test_ld_f : after (.ldFVx 1) (core 0x200 [(1, 0xFF)]) (·.i) = some 0x4FB := by decide
theorem test_bcd :
    after (.ldBVx 0) (core 0x200 [(0, 234)])
      (fun s => [0x300, 0x301, 0x302].map s.mem.read) = some [2, 3, 4] := by decide
theorem test_bcd_past_memory :
    after (.ldBVx 0) (core 0x200 [(0, 199)] 0xFFE)
      (fun s => ([0xFFE, 0xFFF].map s.mem.read, s.pc, s.fault)) =
      some ([1, 9], 0x200, ⟨.invalidAddress, 0x1000⟩) := by decide
theorem test_block_store :
    after (.ldMemVx 1) (core 0x200 [(0, 2), (1, 7), (2, 9)] 0x302)
      (fun s => ([0x302, 0x303, 0x304].map s.mem.read, s.i)) = some ([2, 7, 0], 0x302) := by decide
theorem test_block_store_past_memory :
    after (.ldMemVx 15) (core 0x200 [(0, 1), (14, 3), (15, 4)] 0xFF1)
      (fun s => ([0xFF1, 0xFFF].map s.mem.read, s.fault)) =
      some ([1, 3], ⟨.invalidAddress, 0x1000⟩) := by decide
theorem test_block_load :
    after (.ldVxMem 2) (core 0x200 [(3, 9)] 0x300 [2, 3, 4])
      (fun s => ([0, 1, 2, 3].map s.readV, s.i)) = some ([2, 3, 4, 9], 0x300) := by decide
theorem test_block_load_past_memory :
    after (.ldVxMem 15) { core 0x200 [] with i := 0xFFFF } (·.fault) =
      some ⟨.invalidAddress, 0xFFFF⟩ := by decide

/-! ### Fetch, load, and the outer loop (95, 2.2, 2.9, S8) -/

/-- The core at `pc` with an elapsed time that opens the cycle gate alone. -/
def ready (pc : Word) (a : Nat) (bytes : List Byte) : State :=
  { core pc [] a bytes with deltaUs := 1667 }

theorem test_fetch_top :
    afterStep (ready 0xFFE 0xFFE [0x60, 0x07]) (fun s => (s.readV 0, s.pc)) =
      some (7, 0x1000) := by decide
theorem test_fetch_past_top :
    afterStep (ready 0x1000 0x300 []) (fun s => (s.pc, s.mode, s.fault)) =
      some (0x1000, .faulted, ⟨.invalidAddress, 0x1001⟩) := by decide
theorem test_fetch_odd :
    afterStep (ready 0x203 0x203 [0x6A, 0xBC]) (fun s => (s.readV 0xA, s.pc)) =
      some (0xBC, 0x205) := by decide
/-- The font's first two bytes spell 0xF090, which is no instruction (log 5). -/
theorem test_fetch_font :
    afterStep (ready 0x000 0x300 []) (·.fault) = some ⟨.unimplementedOpcode, 0xF090⟩ := by decide
theorem test_faulted_is_terminal :
    stopOf (step { State.reset with mode := .faulted, fault := ⟨.stackOverflow, 0x200⟩ }) =
      some (.machineFaulted ⟨.stackOverflow, 0x200⟩) := by decide
/-- 95, 2.9, sequence C: the strict comparison of the cycle gate. -/
theorem test_cycle_gate_strict :
    afterStep { State.reset with deltaUs := 1666 } (fun s => (s.cycleAcc, s.mode)) =
      some (1666, .run) ∧
    afterStep { State.reset with deltaUs := 1667 } (fun s => (s.cycleAcc, s.mode)) =
      some (0, .faulted) := by decide
/-- 95, 2.9, sequence C: the strict comparison of the tick gate. -/
theorem test_tick_gate_strict :
    afterStep { waiting 0 with deltaUs := 16666, dt := 9 } (fun s => (s.timerAcc, s.dt)) =
      some (16666, 9) ∧
    afterStep { waiting 0 with deltaUs := 16667, dt := 9 } (fun s => (s.timerAcc, s.dt)) =
      some (1, 8) := by decide
/-- R262: after a step that faults the tick gate is not evaluated. -/
theorem test_no_tick_after_fault :
    afterStep { State.reset with deltaUs := 50000, dt := 9 }
      (fun s => (s.mode, s.timerAcc, s.dt)) = some (.faulted, 50000, 9) := by decide
/-- 95, 2.9, sequence D: one step, then one tick, after a long pause. -/
theorem test_one_tick_per_iteration :
    afterStep { core 0x200 [] 0x200 [0xF0, 0x15] with deltaUs := 50000, v := Vector.replicate 16 7 }
      (fun s => (s.timerAcc, s.cycleAcc, s.dt, s.pc)) = some (2, 0, 6, 0x202) := by decide
theorem test_load_short :
    ([0x1FF, 0x200, 0x201].map (State.powerOn [0xAB]).mem.read) = [0, 0xAB, 0] := by decide
/-- 95, P9: glyph A of the font constant (log 5). -/
theorem test_font_a :
    ([0x32, 0x33, 0x34, 0x35, 0x36].map State.reset.mem.read) = [0xF0, 0x90, 0xF0, 0x90, 0x90] := by
  decide
/-- A write of the initial contents leaves no entry, whatever stood there (log 18). -/
theorem test_write_back_is_canonical :
    Memory.write (Memory.write (Memory.write [] 0x300 1) 0x100 2) 0x300 0 = [(0x100, 2)] := by decide
theorem test_placed_word_runs :
    afterStep (State.reset.withFetchWord 16 0x6A05) (fun s => (s.readV 0xA, s.pc)) =
      some (5, 0x202) ∧
    afterStep (({ State.reset with pc := 0xFFF } : State).withFetchWord 16 0x1208) (·.pc) =
      some 0x208 := by decide

/-! ### Witnesses: for every obligation with hypotheses, values that meet them all, and for each of
its clauses a value at the clause's boundary -/

theorem witness_DecodeEncodeRoundTrip :
    (Instr.sysAddr 0x0E1).wf = true ∧ (Instr.drw 15 15 15).wf = true := by decide
theorem witness_DecodedWordIsItsEncoding :
    decode 0x00E1#16 = .ok (.sysAddr 0x0E1) ∧ decode 0xFF65#16 = .ok (.ldVxMem 15) := by decide

/-- LD V0, 7 in the last two bytes of memory, and an elapsed time just past the cycle period. -/
def lastWord : State := ready 0xFFE 0xFFE [0x60, 0x07]
theorem witness_StepRunsDecodedInstruction :
    lastWord.mode = .run ∧ 1666 < lastWord.cycleAcc + lastWord.deltaUs ∧
    ({ lastWord with deltaUs := 1666 } : State).cycleAcc + 1666 ≤ 1666 ∧
    lastWord.pc.toNat ≤ 0xFFE ∧
    decode (lastWord.mem.read lastWord.pc.toNat ++ lastWord.mem.read (lastWord.pc.toNat + 1)) =
      .ok (.ldByte 0 7) := by decide
theorem witness_WaitingCoreTakesNoCpuStep : (waiting 0).mode = .waitKey 3 := by decide
theorem witness_RunEndsExactlyInOffAndFaulted :
    ({ State.reset with mode := .off } : State).mode = .off ∧
    ({ State.reset with mode := .faulted } : State).mode = .faulted ∧
    State.reset.mode = .run ∧ (waiting 0).mode = .waitKey 3 := by decide
theorem witness_IterationIsAtMostStepThenTick : ∃ t, step lastWord = .next t := ⟨_, rfl⟩
theorem witness_FetchIsBigEndianAndBounded :
    (core 0xFFE []).pc.toNat ≤ 0xFFE ∧ 0xFFF ≤ (core 0xFFF []).pc.toNat := by decide
theorem witness_UndecodableWordRaises :
    (core 0x000 []).fetch = .done 0xF090 (core 0x000 []) ∧
    decode 0xF090#16 = .error (.unimplementedOpcode 0xF090) := by decide
theorem witness_RaisingInstructionKeepsPc :
    State.reset.mode ≠ .faulted ∧ ∃ t, exec .ret State.reset = .next t ∧ t.mode = .faulted :=
  ⟨by decide, _, rfl, by decide⟩
theorem witness_PushAndPopAreBounded :
    ({ State.reset with sp := 16 } : State).sp.val = 16 ∧
    ({ State.reset with sp := 15 } : State).sp.val < 16 ∧
    State.reset.sp.val = 0 ∧ ({ State.reset with sp := 1 } : State).sp.val = 0 + 1 ∧
    ({ State.reset with sp := 16 } : State).sp.val = 15 + 1 := by decide
theorem witness_CallPushesReturnAddress :
    ({ State.reset with sp := 15 } : State).sp.val < 16 ∧
    ({ State.reset with sp := 16 } : State).sp.val = 16 := by decide
theorem witness_ReturnTakesTopSlot :
    State.reset.sp.val = 0 ∧ ({ State.reset with sp := 16 } : State).sp.val = 15 + 1 := by decide
theorem witness_CallThenReturnResumesAfterCall :
    State.reset.sp.val < 16 ∧ ∃ t, exec (.callAddr 0x300) State.reset = .next t :=
  ⟨by decide, _, rfl⟩
theorem witness_ImmediateSkips :
    State.reset.readV 1 = 0x00 ∧ State.reset.readV 1 ≠ 0xFF := by decide
theorem witness_RegisterSkips :
    (core 0x220 [(3, 1)]).readV 3 ≠ (core 0x220 [(3, 1)]).readV 4 ∧
    State.reset.readV 3 = State.reset.readV 4 := by decide
theorem witness_AddSetsCarryLast :
    (State.reset.writeV 0 0xFF).readV 0 = 0xFF ∧ 0xFF + 0x00 ≤ 255 ∧ 0xFF + 0x01 > 255 ∧
    (0 : Reg) ≠ 15 ∧ (1 : Reg) ≠ 0 ∧ (1 : Reg) ≠ 15 := by decide
theorem witness_SubtractionsSetNotBorrowLast :
    (0 : Reg) ≠ 15 ∧ (1 : Reg) ≠ 0 ∧ (1 : Reg) ≠ 15 ∧
    (core 0x200 [(0, 5), (1, 5)]).readV 0 ≥ (core 0x200 [(0, 5), (1, 5)]).readV 1 ∧
    (core 0x200 [(0, 4), (1, 5)]).readV 0 < (core 0x200 [(0, 4), (1, 5)]).readV 1 := by decide
theorem witness_ShiftsReportBitZeroLast :
    (0 : Reg) ≠ 15 ∧ (1 : Reg) ≠ 0 ∧ (1 : Reg) ≠ 15 := by decide
theorem witness_DrawTogglesTheSpritesCells :
    (0#4).toNat = 0 ∧ (core 0x200 [] 0xFF1).i.toNat + (15#4).toNat ≤ 0x1000 := by decide
/-- A sprite of one set pixel at (0, 0), on a clear and on a set cell. -/
def onePixel (row : BitVec 64) : State :=
  { core 0x200 [] 0xFFF [0x80] with fb := Vector.replicate 32 row }
theorem witness_DrawTogglesTheSpritesCells_hit (row : BitVec 64) :
    (onePixel row).SpriteHits 0 1 1 0 ∧ (onePixel 0).SpritePixel 1 0 0 := by
  refine ⟨⟨0, 0, ⟨?_, ?_, ?_, ?_⟩, ?_⟩, ⟨?_, ?_, ?_, ?_⟩⟩ <;>
    first
    | decide
    | rfl
    | exact (by decide : ((core 0x200 [] 0xFFF [0x80]).mem.read 0xFFF).getLsbD 7 = true)
theorem witness_DrawTogglesTheSpritesCells_collide : (onePixel 1).SpriteCollides 0 1 1 :=
  ⟨0, (witness_DrawTogglesTheSpritesCells_hit 1).1, by decide⟩
theorem witness_DrawTogglesTheSpritesCells_clear : ¬ (onePixel 0).SpriteCollides 0 1 1 := by
  rintro ⟨k, _, h⟩
  revert h
  simp [State.cell, onePixel]
theorem witness_DrawPastMemoryRaises :
    (2#4).toNat ≠ 0 ∧ 0x1000 < (onePixel 0).i.toNat + (2#4).toNat := by decide
theorem witness_DrawPastMemoryRaises_pixel : (onePixel 0).SpritePixel 2 0 0 := by
  refine ⟨?_, ?_, ?_, ?_⟩ <;> decide
theorem witness_DrawingTwiceRestoresTheBuffer :
    ∃ t u, (onePixel 0).i.toNat + (1#4).toNat ≤ 0x1000 ∧
      exec (.drw 0 1 1) (onePixel 0) = .next t ∧ t.readV 0 = (onePixel 0).readV 0 ∧
      t.readV 1 = (onePixel 0).readV 1 ∧ exec (.drw 0 1 1) t = .next u :=
  ⟨_, _, by decide, rfl, by decide, by decide, rfl⟩
theorem witness_KeyTestsReadTheLatch :
    ((core 0x230 [(4, 15)]).readV 4).toNat ≤ 15 ∧
    ({ core 0x230 [(4, 15)] with keys := 0x8000 } : State).keys.getLsbD 15 = true ∧
    15 < ((core 0x230 [(4, 16)]).readV 4).toNat := by decide
theorem witness_KeyWaitTakesLowestKey :
    (waiting 0x8000).mode = .waitKey 3 ∧ (waiting 0x8000).isOn = true ∧
    (waiting 0x8000).quitIn = false ∧
    (∀ k, k ≤ 14 → (waiting 0x8000).keyIn.getLsbD k = false) ∧
    (waiting 0x4000).keyIn.getLsbD 14 = true ∧
    (∀ j, j < 14 → (waiting 0x4000).keyIn.getLsbD j = false) := by decide
theorem witness_QuitBreaksTheKeyWait :
    ({ waiting 4 with quitIn := true } : State).mode = .waitKey 3 ∧
    ({ waiting 4 with quitIn := true } : State).quitIn = true := by decide
theorem witness_BeeperFollowsSoundTimer :
    1 < ({ State.reset with st := 2 } : State).st.toNat ∧
    ({ State.reset with st := 1 } : State).st.toNat = 1 ∧ State.reset.st.toNat = 0 := by decide
theorem witness_TickShowsDirtyFrame :
    ({ State.reset with dirty := true } : State).dirty = true ∧
    State.reset.dirty = false := by decide
theorem witness_TickSamplesKeysAndQuit :
    ({ State.reset with quitIn := true } : State).quitIn = true ∧
    State.reset.quitIn = false := by decide
theorem witness_TickLeavesProgramState : State.reset.mode = .run := by decide
theorem witness_BcdStoresThreeDigits :
    (core 0x200 [] 0xFFD).i.toNat + 2 ≤ 0xFFF ∧ 0xFFF < (core 0x200 [] 0xFFE).i.toNat + 2 ∧
    (core 0x200 [] 0xFFE).i.toNat + 1 ≤ 0xFFF := by decide
theorem witness_BlockStoreCopiesRegisters :
    (core 0x200 [] 0xFF0).i.toNat + (15 : Reg).val ≤ 0xFFF ∧
    0xFFF < (core 0x200 [] 0xFF1).i.toNat + (15 : Reg).val ∧
    (core 0x200 [] 0xFF1).i.toNat + (14 : Reg).val ≤ 0xFFF := by decide
theorem witness_BlockLoadCopiesMemory :
    (core 0x200 [] 0xFFF).i.toNat + (0 : Reg).val ≤ 0xFFF ∧
    0xFFF < (core 0x200 [] 0xFFF).i.toNat + (1 : Reg).val := by decide
theorem witness_RegistersChangeOnlyByTheirWriters :
    writesReg (.addReg 0 1) 2 = false ∧ ∃ t, exec (.addReg 0 1) State.reset = .next t :=
  ⟨by decide, _, rfl⟩
theorem witness_StateChangesOnlyByItsInstructions :
    (∃ t, exec (.ldByte 0 1) State.reset = .next t) ∧ ¬ writesI (.ldByte 0 1) ∧
    ¬ writesStack (.ldByte 0 1) ∧ ¬ writesMem (.ldByte 0 1) ∧ ¬ writesFb (.ldByte 0 1) := by
  refine ⟨⟨_, rfl⟩, ?_⟩
  simp [writesI, writesStack, writesMem, writesFb]
theorem witness_KeyAndQuitPortsUnseenBetweenTicks :
    ({ State.reset with deltaUs := 16666 } : State).timerAcc + 16666 ≤ 16666 ∧
    State.reset.mode = .run ∧ (waiting 0).mode = .waitKey 3 := by decide
theorem witness_ByteAccessesAreRangeChecked :
    0xFFF ≤ 0xFFF ∧ 0xFFF < 0x1000 ∧ 0x1000 < 2 ^ 17 ∧ 0xFFF < 0x1FFFF ∧ 0x1FFFF < 2 ^ 17 := by
  decide
theorem witness_CanonicalMemoriesReadingAlikeAreEqual :
    Memory.wf (Memory.write [] 0x300 1) ∧ Memory.wf [(0x300, 1)] ∧
    ∀ a, (Memory.write [] 0x300 1).read a = Memory.read [(0x300, 1)] a :=
  ⟨by decide, by decide, fun _ => rfl⟩
theorem witness_LoadPlacesOrRejectsTheImage :
    (List.replicate 3584 (0 : Byte)).length ≤ 3584 ∧
    3584 < (List.replicate 3585 (0 : Byte)).length := by
  simp only [List.length_replicate]; decide
theorem witness_StepKeepsMemoryCanonical :
    lastWord.mem.wf ∧ lastWord.mem ≠ [] ∧ ∃ t, step lastWord = .next t :=
  ⟨by decide, by decide, _, rfl⟩
/-- A core at the largest pc a run can reach, with the largest return addresses. -/
def highest : State := { State.reset with pc := 0x10FE, stack := Vector.replicate 16 0x1000 }
theorem witness_StepKeepsPcInRange : highest.PcInRange ∧ ∃ t, step highest = .next t := by
  refine ⟨?_, _, rfl⟩
  unfold State.PcInRange
  decide
theorem witness_StepKeepsModeConsistent :
    State.ModeConsistent (waiting 0) ∧ ∃ t, step (waiting 0) = .next t := by
  refine ⟨?_, _, rfl⟩
  unfold State.ModeConsistent
  decide
theorem witness_TickGateTakesOneTickWhenDue :
    State.reset.mode = .run ∧ (waiting 0).mode = .waitKey 3 ∧
    16666 < ({ waiting 0 with timerAcc := 16667 } : State).timerAcc ∧
    ({ waiting 0 with timerAcc := 16666 } : State).timerAcc ≤ 16666 ∧
    ({ State.reset with mode := .off } : State).mode = .off ∧
    ({ State.reset with mode := .faulted } : State).mode = .faulted := by decide
theorem witness_StepSettlesTheGates :
    ∃ t, step ({ waiting 0 with deltaUs := 50000 } : State) = .next t := ⟨_, rfl⟩

end Sys2Proof.Tests
end

section
/-! PROOF. Control flow: where a jump and a skip land, and that they change the pc alone
(spec/40_control_flow.md R112, R114 to R117). -/

namespace Sys2Proof.Machine

/-! ### Where jumps and skips land -/

/-- A 12-bit target keeps its value as a 16-bit pc. -/
@[simp] theorem addrOperand_toNat (nnn : Addr) : (addrOperand nnn).toNat = nnn.toNat :=
  BitVec.toNat_setWidth_of_le (by decide)

/-- A jump changes the pc alone. -/
theorem State.jump_frame (s : State) (t : Word) : s.jump t = { s with pc := (s.jump t).pc } := rfl

/-- A skip, taken or not, changes the pc alone. -/
theorem State.skipIf_frame (s : State) (c : Bool) :
    s.skipIf c = { s with pc := (s.skipIf c).pc } := s.jump_frame _

theorem State.skipIf_beq_pc_of_eq (s : State) {a b : Byte} (h : a = b) :
    (s.skipIf (a == b)).pc = s.pc + 4 := by simp [h]

theorem State.skipIf_beq_pc_of_ne (s : State) {a b : Byte} (h : a ≠ b) :
    (s.skipIf (a == b)).pc = s.pc + 2 := by simp [h]

theorem State.skipIf_bne_pc_of_ne (s : State) {a b : Byte} (h : a ≠ b) :
    (s.skipIf (a != b)).pc = s.pc + 4 := by simp [h]

theorem State.skipIf_bne_pc_of_eq (s : State) {a b : Byte} (h : a = b) :
    (s.skipIf (a != b)).pc = s.pc + 2 := by simp [h]

/-! ### What the jump and the skips answer -/

theorem exec_jpAddr (nnn : Addr) (s : State) :
    exec (.jpAddr nnn) s = .next (s.jump (addrOperand nnn)) := rfl

theorem exec_seByte (x : Reg) (nn : Byte) (s : State) :
    exec (.seByte x nn) s = .next (s.skipIf (s.readV x == nn)) := rfl

theorem exec_sneByte (x : Reg) (nn : Byte) (s : State) :
    exec (.sneByte x nn) s = .next (s.skipIf (s.readV x != nn)) := rfl

theorem exec_seReg (x y : Reg) (s : State) :
    exec (.seReg x y) s = .next (s.skipIf (s.readV x == s.readV y)) := rfl

theorem exec_sneReg (x y : Reg) (s : State) :
    exec (.sneReg x y) s = .next (s.skipIf (s.readV x != s.readV y)) := rfl

/-! ### The obligations -/

/-- Settles O13: JP is a jump to NNN widened to 16 bits, which changes the pc alone. -/
theorem jumpLandsOnTarget : Obligations.JumpLandsOnTarget := by
  intro nnn s
  exact ⟨_, exec_jpAddr nnn s, addrOperand_toNat nnn, s.jump_frame _⟩

/-- Settles O18: SE and SNE with a byte are `skipIf` on equality and on difference. -/
theorem immediateSkips : Obligations.ImmediateSkips := by
  intro x nn s
  constructor
  · exact ⟨_, exec_seByte x nn s, s.skipIf_beq_pc_of_eq, s.skipIf_beq_pc_of_ne, s.skipIf_frame _⟩
  · exact ⟨_, exec_sneByte x nn s, s.skipIf_bne_pc_of_ne, s.skipIf_bne_pc_of_eq, s.skipIf_frame _⟩

/-- Settles O19: SE and SNE with two registers are `skipIf` on equality and on difference, and with
X = Y the two bytes read are equal. -/
theorem registerSkips : Obligations.RegisterSkips := by
  intro x y s
  have hsame : x = y → s.readV x = s.readV y := congrArg s.readV
  constructor
  · exact ⟨_, exec_seReg x y s, s.skipIf_beq_pc_of_eq, s.skipIf_beq_pc_of_ne,
      fun h => s.skipIf_beq_pc_of_eq (hsame h), s.skipIf_frame _⟩
  · exact ⟨_, exec_sneReg x y s, s.skipIf_bne_pc_of_ne, s.skipIf_bne_pc_of_eq,
      fun h => s.skipIf_bne_pc_of_eq (hsame h), s.skipIf_frame _⟩

end Sys2Proof.Machine
end

section
/-! PROOF. The register load: what a result written to one register, with the pc moved on, leaves
behind (spec/41_arith_logic.md R130). -/

namespace Sys2Proof.Machine

/-! ### A result in one register, then the next instruction -/

theorem State.writeV_advance_readV_same (s : State) (x : Reg) (b : Byte) :
    (s.writeV x b).advance.readV x = b := by simp

theorem State.writeV_advance_readV_ne (s : State) (x : Reg) (b : Byte) {r : Reg} (h : r ≠ x) :
    (s.writeV x b).advance.readV r = s.readV r := by simp [h]

/-- A result in one register and the step to the next instruction change V and the pc alone. -/
theorem State.writeV_advance_frame (s : State) (x : Reg) (b : Byte) :
    (s.writeV x b).advance =
      { s with v := (s.writeV x b).advance.v, pc := (s.writeV x b).advance.pc } := rfl

theorem exec_ldByte (x : Reg) (nn : Byte) (s : State) :
    exec (.ldByte x nn) s = .next (s.writeV x nn).advance := rfl

/-! ### The obligation -/

/-- Settles O22: LD Vx, byte is the write of NN to V[X] followed by the advance of the pc; VF is
V[X] when X = 15 and an untouched register otherwise. -/
theorem loadImmediateWritesByte : Obligations.LoadImmediateWritesByte := by
  intro x nn s
  have hother : ∀ r, r ≠ x → (s.writeV x nn).advance.readV r = s.readV r :=
    fun _ => s.writeV_advance_readV_ne x nn
  exact ⟨_, exec_ldByte x nn s, s.writeV_advance_readV_same x nn, hother,
    (s.writeV x nn).advance_pc, s.writeV_advance_frame x nn⟩

end Sys2Proof.Machine
end

section
/-! PROOF. Clearing the display: what CLS, with the pc moved on, leaves behind (spec/42_display.md
R160, R163). -/

namespace Sys2Proof.Machine

/-! ### A cleared display, then the next instruction -/

@[simp] theorem State.cell_advance (s : State) (k : Nat) : s.advance.cell k = s.cell k :=
  State.cell_congr s.advance_fb k

/-- Clearing the display and the step to the next instruction change the buffer, the dirty flag and
the pc alone. -/
theorem State.fbClear_advance_frame (s : State) :
    s.fbClear.advance =
      { s with fb := s.fbClear.advance.fb, dirty := s.fbClear.advance.dirty,
               pc := s.fbClear.advance.pc } := rfl

theorem exec_cls (s : State) : exec .cls s = .next s.fbClear.advance := rfl

/-! ### The obligation -/

/-- Settles O29: CLS is the clearing of the buffer, which sets dirty whatever the buffer held,
followed by the advance of the pc. -/
theorem clearScreenSetsDirty : Obligations.ClearScreenSetsDirty := by
  intro s
  have hclear : ∀ k, s.fbClear.advance.cell k = false := fun k => by simp
  have hdirty : s.fbClear.advance.dirty = true := by simp
  exact ⟨_, exec_cls s, hclear, hdirty, s.fbClear.advance_pc, s.fbClear_advance_frame⟩

end Sys2Proof.Machine
end

section
/-! PROOF. The tick's timers, frame and samples: what the delay timer, the display and the input
latches hold after a tick, in every mode (spec/60_exceptions.md R226, R228, R229). -/

namespace Sys2Proof.Machine

/-! ### The fields the four parts set, after the whole tick -/

theorem State.tick60_dt (s : State) :
    s.tick60.dt = if 0 < s.dt.toNat then s.dt - 1 else s.dt := by
  rw [State.tick60_frame, State.tickDevices_eq]

theorem State.tick60_dirty (s : State) : s.tick60.dirty = false := by
  rw [State.tick60_frame, State.tickDevices_eq]

theorem State.tick60_fb (s : State) : s.tick60.fb = s.fb := by
  obtain ⟨_, _, _, _, hfb, _⟩ := s.tick60_keeps
  exact hfb

theorem State.tick60_frameOut (s : State) :
    s.tick60.frameOut = if s.dirty then s.fb else s.frameOut := by
  rw [State.tick60_frame, State.tickDevices_eq]

theorem State.tick60_keys (s : State) : s.tick60.keys = s.keyIn := by
  rw [State.tick60_frame, State.tickDevices_eq]

theorem State.tick60_isOn (s : State) :
    s.tick60.isOn = if s.quitIn then false else s.isOn := by
  rw [State.tick60_frame, State.tickDevices_eq]

/-! ### The obligations -/

/-- Settles O38: whatever the mode, DT after a tick is the timer's floored decrement. -/
theorem delayTimerFloorsAtZero : Obligations.DelayTimerFloorsAtZero := by
  intro s
  rw [s.tick60_dt]
  exact timer_floor s.dt

/-- Settles O40: the frame latch takes the buffer exactly when dirty was set, and the buffer is a
field every tick keeps. -/
theorem tickShowsDirtyFrame : Obligations.TickShowsDirtyFrame := by
  intro s
  have hshown : s.dirty = true → s.tick60.frameOut = s.fb :=
    fun hd => s.tick60_frameOut.trans (if_pos hd)
  have hformer : s.dirty = false → s.tick60.frameOut = s.frameOut :=
    fun hd => s.tick60_frameOut.trans (if_neg (by simp [hd]))
  exact ⟨s.tick60_dirty, s.tick60_fb, hshown, hformer⟩

/-- Settles O41: the latch is the whole of key_in, and a quit request is the one thing a tick lets
act on is_on. -/
theorem tickSamplesKeysAndQuit : Obligations.TickSamplesKeysAndQuit := by
  intro s
  have hkeys : ∀ k, k ≤ 15 → s.tick60.keys.getLsbD k = s.keyIn.getLsbD k :=
    fun k _ => by rw [s.tick60_keys]
  have hquit : s.quitIn = true → s.tick60.isOn = false :=
    fun hq => s.tick60_isOn.trans (if_pos hq)
  have hstay : s.quitIn = false → s.tick60.isOn = s.isOn :=
    fun hq => s.tick60_isOn.trans (if_neg (by simp [hq]))
  exact ⟨hkeys, hquit, hstay⟩

end Sys2Proof.Machine
end

section
/-! PROOF. Encoding: a well-formed instruction is what its word decodes to, a word that decodes is
the word of what it decodes to, and the words that cannot execute (spec/30_encoding.md R82 to R88).
-/

namespace Sys2Proof

/-! ### A word whose top nibble is known is the word of its other fields -/

theorem wordAddr_of_major {op : Word} {m : Nibble} (h : majorField op = m) :
    wordAddr m (nnnField op) = op := h ▸ wordAddr_fields op

theorem wordRegImm_of_major {op : Word} {m : Nibble} (h : majorField op = m) :
    wordRegImm m (xField op) (nnField op) = op := h ▸ wordRegImm_fields op

theorem wordRegReg_of_major {op : Word} {m : Nibble} (h : majorField op = m) :
    wordRegReg m (xField op) (yField op) (nField op) = op := h ▸ wordRegReg_fields op

/-- A word of format REG_FN whose top nibble and function byte are known. -/
theorem wordRegImm_of_fn {op : Word} {m : Nibble} {fn : Byte} (h : majorField op = m)
    (hfn : nnField op = fn) : wordRegImm m (xField op) fn = op := hfn ▸ wordRegImm_of_major h

/-- A word of format REG_REG whose top and bottom nibble are known. -/
theorem wordRegReg_of_fn {op : Word} {m n : Nibble} (h : majorField op = m) (hn : nField op = n) :
    wordRegReg m (xField op) (yField op) n = op := hn ▸ wordRegReg_of_major h

/-! ### Family 0: the two words that are no SYS -/

/-- In family 0 a word is one literal exactly when NNN is the literal's. -/
theorem eq_wordAddr_zero_iff {op : Word} (h : majorField op = 0x0#4) (nnn : Addr) :
    op = wordAddr 0x0#4 nnn ↔ nnnField op = nnn := by
  constructor
  · rintro rfl
    exact nnnField_wordAddr _ _
  · rintro rfl
    exact (wordAddr_of_major h).symm

theorem eq_clsWord_iff {op : Word} (h : majorField op = 0x0#4) :
    op = 0x00E0#16 ↔ nnnField op = 0x0E0#12 := eq_wordAddr_zero_iff h 0x0E0#12

theorem eq_retWord_iff {op : Word} (h : majorField op = 0x0#4) :
    op = 0x00EE#16 ↔ nnnField op = 0x0EE#12 := eq_wordAddr_zero_iff h 0x0EE#12

theorem decode_sysWord {nnn : Addr} (h : (Instr.sysAddr nnn).wf = true) :
    decode (wordAddr 0x0#4 nnn) = .ok (.sysAddr nnn) := by
  have hm : majorField (wordAddr 0x0#4 nnn) = 0x0#4 := majorField_wordAddr _ _
  obtain ⟨hcls, hret⟩ : nnn ≠ 0x0E0#12 ∧ nnn ≠ 0x0EE#12 := by simpa [Instr.wf] using h
  simp [decode, decode0, eq_clsWord_iff hm, eq_retWord_iff hm, hcls, hret]

/-! ### From the instruction to the word and back -/

/-- The instruction's word decodes to the instruction: the fields of a word of each format are the
operands it was made of, and the secondary dispatch sees the row's own literal. -/
theorem decode_encode (i : Instr) (h : i.wf = true) : decode (encode i) = .ok i := by
  cases i with
  | cls | ret => decide
  | sysAddr nnn => exact decode_sysWord h
  | jpAddr | callAddr | ldIAddr | jpV0Addr => simp [encode, decode]
  | seByte | sneByte | ldByte | addByte | rndByte => simp [encode, decode]
  | seReg | sneReg | drw => simp [encode, decode]
  | ldReg | orReg | andReg | xorReg | addReg | subReg | shr | subnReg | shl =>
    simp [encode, decode, decode8]
  | skp | sknp => simp [encode, decode, decodeE]
  | ldVxDt | ldVxK | ldDtVx | ldStVx | addIVx | ldFVx | ldBVx | ldMemVx | ldVxMem =>
    simp [encode, decode, decodeF]

/-! ### From the word to the instruction and back -/

/-- What a decoder answered is an instruction of its own, whose word is the decoded one. -/
def DecodesToItsWord (op : Word) (r : Except DecodeError Instr) : Prop :=
  ∀ i, r = .ok i → encode i = op ∧ i.wf = true

theorem decodesToItsWord_error (op : Word) (e : DecodeError) : DecodesToItsWord op (.error e) := by
  intro i h
  cases h

theorem decodesToItsWord_ok {op : Word} {i : Instr} (hw : encode i = op) (hwf : i.wf = true) :
    DecodesToItsWord op (.ok i) := by
  intro j h
  cases h
  exact ⟨hw, hwf⟩

theorem decode0_itsWord {op : Word} (h : majorField op = 0x0#4) :
    DecodesToItsWord op (decode0 op) := by
  unfold decode0
  split
  · next hcls => exact decodesToItsWord_ok hcls.symm rfl
  · next hcls =>
    split
    · next hret => exact decodesToItsWord_ok hret.symm rfl
    · next hret =>
      rw [eq_clsWord_iff h] at hcls
      rw [eq_retWord_iff h] at hret
      exact decodesToItsWord_ok (wordAddr_of_major h) (by simp [Instr.wf, hcls, hret])

theorem decode8_itsWord {op : Word} (h : majorField op = 0x8#4) :
    DecodesToItsWord op (decode8 op) := by
  unfold decode8
  split
  case h_10 => exact decodesToItsWord_error op _
  all_goals next hn => exact decodesToItsWord_ok (wordRegReg_of_fn h hn) rfl

theorem decodeE_itsWord {op : Word} (h : majorField op = 0xE#4) :
    DecodesToItsWord op (decodeE op) := by
  unfold decodeE
  split
  case h_3 => exact decodesToItsWord_error op _
  all_goals next hn => exact decodesToItsWord_ok (wordRegImm_of_fn h hn) rfl

theorem decodeF_itsWord {op : Word} (h : majorField op = 0xF#4) :
    DecodesToItsWord op (decodeF op) := by
  unfold decodeF
  split
  case h_10 => exact decodesToItsWord_error op _
  all_goals next hn => exact decodesToItsWord_ok (wordRegImm_of_fn h hn) rfl

/-- Every 4-bit value is one of the sixteen. -/
theorem nibble_cases (m : Nibble) :
    m = 0x0#4 ∨ m = 0x1#4 ∨ m = 0x2#4 ∨ m = 0x3#4 ∨ m = 0x4#4 ∨ m = 0x5#4 ∨ m = 0x6#4 ∨
    m = 0x7#4 ∨ m = 0x8#4 ∨ m = 0x9#4 ∨ m = 0xA#4 ∨ m = 0xB#4 ∨ m = 0xC#4 ∨ m = 0xD#4 ∨
    m = 0xE#4 ∨ m = 0xF#4 := by
  revert m
  decide

/-- The decoder answers with an instruction whose word is the one it was given: a family with a
decoder of its own by that decoder's lemma, every other row by its format. -/
theorem decode_itsWord (op : Word) : DecodesToItsWord op (decode op) := by
  unfold decode
  split
  case h_1 h => exact decode0_itsWord h
  case h_9 h => exact decode8_itsWord h
  case h_15 h => exact decodeE_itsWord h
  case h_16 h => exact decodeF_itsWord h
  case h_17 => exact decodesToItsWord_error op _
  case h_6 h | h_10 h =>
    split
    · next hn => exact decodesToItsWord_ok (wordRegReg_of_fn h hn) rfl
    · exact decodesToItsWord_error op _
  case h_14 h => exact decodesToItsWord_ok (wordRegReg_of_major h) rfl
  case h_2 h | h_3 h | h_11 h | h_12 h => exact decodesToItsWord_ok (wordAddr_of_major h) rfl
  case h_4 h | h_5 h | h_7 h | h_8 h | h_13 h =>
    exact decodesToItsWord_ok (wordRegImm_of_major h) rfl

/-- Every instruction's word has the fixed bits of its row (R86). -/
theorem encode_rowMatch (i : Instr) : Laws.RowMatch.Statement i := by
  open Laws.RowMatch in
  cases i
  exacts [cls, ret, sysAddr _, jpAddr _, callAddr _, seByte _ _, sneByte _ _, seReg _ _,
    ldByte _ _, addByte _ _, ldReg _ _, orReg _ _, andReg _ _, xorReg _ _, addReg _ _, subReg _ _,
    shr _ _, subnReg _ _, shl _ _, sneReg _ _, ldIAddr _, jpV0Addr _, rndByte _ _, drw _ _ _,
    skp _, sknp _, ldVxDt _, ldVxK _, ldDtVx _, ldStVx _, addIVx _, ldFVx _, ldBVx _, ldMemVx _,
    ldVxMem _]

/-! ### The words that cannot execute -/

/-- A decoder's answer is no instruction that executes: an error, or the SYS that always raises. -/
def CannotExecute (r : Except DecodeError Instr) : Prop :=
  (∃ e, r = .error e) ∨ ∃ nnn, r = .ok (.sysAddr nnn)

theorem decode0_cannotExecute {op : Word} (h : majorField op = 0x0#4) :
    CannotExecute (decode0 op) ↔ nnnField op ≠ 0x0E0#12 ∧ nnnField op ≠ 0x0EE#12 := by
  rw [decode0, CannotExecute, ← not_or, ← eq_clsWord_iff h, ← eq_retWord_iff h]
  by_cases hcls : op = 0x00E0#16
  · simp [hcls]
  · by_cases hret : op = 0x00EE#16 <;> simp [hcls, hret]

theorem decode8_cannotExecute (op : Word) : CannotExecute (decode8 op) ↔
    nField op ∈ [0x8#4, 0x9#4, 0xA#4, 0xB#4, 0xC#4, 0xD#4, 0xF#4] := by
  rw [decode8, CannotExecute]
  split
  case h_10 =>
    have hn := nibble_cases (nField op)
    simp_all
  all_goals next h => simp [h]

theorem decodeE_cannotExecute (op : Word) :
    CannotExecute (decodeE op) ↔ nnField op ∉ [0x9E#8, 0xA1#8] := by
  rw [decodeE, CannotExecute]
  split <;> simp_all

theorem decodeF_cannotExecute (op : Word) : CannotExecute (decodeF op) ↔ nnField op ∉
    [0x07#8, 0x0A#8, 0x15#8, 0x18#8, 0x1E#8, 0x29#8, 0x33#8, 0x55#8, 0x65#8] := by
  rw [decodeF, CannotExecute]
  split <;> simp_all

theorem not_cannotExecute_ok {i : Instr} (h : ∀ nnn, i ≠ .sysAddr nnn) :
    ¬ CannotExecute (.ok i) := by
  rintro (⟨e, he⟩ | ⟨nnn, hn⟩)
  · cases he
  · cases hn
    exact h nnn rfl

/-- Families 5 and 9 (R85): one instruction, and only with N = 0. -/
theorem cannotExecute_ite {c : Prop} [Decidable c] {i : Instr} {e : DecodeError}
    (h : ∀ nnn, i ≠ .sysAddr nnn) : CannotExecute (if c then .ok i else .error e) ↔ ¬ c := by
  by_cases hc : c
  · simpa [hc] using not_cannotExecute_ok h
  · simp [hc, CannotExecute]

/-! ### The obligations -/

/-- Settles O1: by the formats of the words, see `decode_encode`. -/
theorem decodeEncodeRoundTrip : Obligations.DecodeEncodeRoundTrip := decode_encode

/-- Settles O2: the word is read off the row that matched, and its fixed bits are those of the
encoding. -/
theorem decodedWordIsItsEncoding : Obligations.DecodedWordIsItsEncoding := by
  intro op i h
  obtain ⟨hword, hwf⟩ := decode_itsWord op i h
  exact ⟨hword, hwf, hword ▸ encode_rowMatch i⟩

/-- Settles O3: family by family of the top nibble; in the families the table does not list, every
word decodes to an instruction that is no SYS. -/
theorem undecodableWordsAreTheSixGroups : Obligations.UndecodableWordsAreTheSixGroups := by
  intro op
  change CannotExecute (decode op) ↔ _
  unfold decode
  split
  case h_1 h => simp [h, decode0_cannotExecute h]
  case h_6 h | h_10 h => rw [cannotExecute_ite (by simp)]; simp [h]
  case h_9 h => simp [h, decode8_cannotExecute]
  case h_15 h => simp [h, decodeE_cannotExecute]
  case h_16 h => simp [h, decodeF_cannotExecute]
  case h_17 =>
    have hm := nibble_cases (majorField op)
    simp_all
  all_goals next h => simp [h, not_cannotExecute_ok]

/-- Settles O4: by evaluating the decoder on the eight words. -/
theorem specWordsDecode : Obligations.SpecWordsDecode := by
  unfold Obligations.SpecWordsDecode
  decide

end Sys2Proof
end

section
/-! PROOF. What one instruction can do, said once for all 35: it answers a next state, reached in
one of six ways, and it leaves alone what the tables of writers do not give it (spec/10_state.md
R21, R26, R28, R29, R44; spec/60_exceptions.md R214, R215). -/

namespace Sys2Proof.Machine

/-! ### The six ways an instruction ends -/

/-- The state an instruction leaves behind, for each of the ways it can end. -/
inductive Effect (s : State) : State → Prop
  /-- It completes, and the pc moves past it or past the instruction after it. -/
  | completes (t : State)
      (frame : t = { s with
        v := t.v, pc := t.pc, i := t.i, dt := t.dt, st := t.st, mem := t.mem, fb := t.fb
        dirty := t.dirty, rndIn := t.rndIn, samples := t.samples })
      (pc : t.pc = s.pc + 2 ∨ t.pc = s.pc + 4) (mem : s.mem.wf → t.mem.wf) : Effect s t
  /-- It lands on a target. -/
  | jumps (target : Word) (bound : target.toNat ≤ 0x10FE) : Effect s (s.jump target)
  /-- It lands on a target with the address after it in the next free slot. -/
  | calls (target : Word) (bound : target.toNat ≤ 0xFFF) (free : s.sp.val < 16) :
      Effect s { s with
        pc := target, stack := s.stack.set s.sp.val (s.pc + 2)
        sp := ⟨s.sp.val + 1, Nat.succ_lt_succ free⟩ }
  /-- It lands on the address in the topmost slot. -/
  | returns (k : Nat) (hk : k < 16) (top : s.sp.val = k + 1) :
      Effect s { s with pc := s.stack[k], sp := ⟨k, Nat.lt_succ_of_lt hk⟩ }
  /-- It begins a key-wait. -/
  | waits (x : Reg) : Effect s { s with mode := .waitKey x }
  /-- It raises, with part of its registers, memory or display written. -/
  | raises (t : State) (c : Cause) (d : Nat)
      (frame : t = { s with v := t.v, mem := t.mem, fb := t.fb, dirty := t.dirty })
      (cause : c ≠ .none) (mem : s.mem.wf → t.mem.wf) : Effect s (t.raise c d)

/-- A skip moves the pc past one instruction or two. -/
theorem Effect.of_skipIf (s : State) (c : Bool) : Effect s (s.skipIf c) := by
  refine .completes _ rfl ?_ id
  cases c
  · exact .inl rfl
  · exact .inr rfl

/-- An update of registers, I, the timers, the display or the random sample, then the next
instruction. -/
theorem Effect.of_advance {s t : State}
    (frame : t = { s with
      v := t.v, i := t.i, dt := t.dt, st := t.st, mem := t.mem, fb := t.fb
      dirty := t.dirty, rndIn := t.rndIn, samples := t.samples })
    (mem : s.mem.wf → t.mem.wf) : Effect s t.advance := by
  have hpc : t.pc = s.pc := by rw [frame]
  refine .completes _ ?_ (.inl (by rw [State.advance_pc, hpc])) mem
  rw [frame]
  rfl

/-- An instruction that may raise, from what its accesses can do. -/
theorem Effect.of_finish {s t : State} {r : Access Unit}
    (frame : t = { s with v := t.v, mem := t.mem, fb := t.fb, dirty := t.dirty })
    (mem : s.mem.wf → t.mem.wf)
    (h : r = .done () t ∨ ∃ d, r = .raised (t.raise .invalidAddress d)) :
    ∃ u, r.finish = .next u ∧ Effect s u := by
  rcases h with rfl | ⟨d, rfl⟩
  · exact ⟨_, rfl, .of_advance (by rw [frame]) mem⟩
  · exact ⟨_, rfl, .raises t _ d frame (by decide) mem⟩

/-! ### Which effect each instruction has -/

theorem exec_ret_of_pos {s : State} {k : Nat} (hk : k < 16) (h : s.sp.val = k + 1) :
    exec .ret s = .next { s with pc := s.stack[k], sp := ⟨k, Nat.lt_succ_of_lt hk⟩ } := by
  simp only [exec, execRet, s.pop_done k hk h]
  rfl

theorem exec_ret_of_empty {s : State} (h : s.sp.val = 0) :
    exec .ret s = .next (s.raise .stackUnderflow s.pc.toNat) := by
  simp only [exec, execRet, s.pop_empty h]

theorem exec_callAddr_of_free (nnn : Addr) {s : State} (h : s.sp.val < 16) :
    exec (.callAddr nnn) s = .next { s with
      pc := addrOperand nnn, stack := s.stack.set s.sp.val (s.pc + 2)
      sp := ⟨s.sp.val + 1, Nat.succ_lt_succ h⟩ } := by
  simp only [exec, execCallAddr, s.push_done _ h]
  rfl

theorem exec_callAddr_of_full (nnn : Addr) {s : State} (h : s.sp.val = 16) :
    exec (.callAddr nnn) s = .next (s.raise .stackOverflow s.pc.toNat) := by
  simp only [exec, execCallAddr, s.push_full _ h]

/-- A state whose stack is empty, or whose topmost used slot has an index below 16. -/
theorem State.sp_cases (s : State) : s.sp.val = 0 ∨ ∃ k, k < 16 ∧ s.sp.val = k + 1 := by
  have hlt := s.sp.isLt
  rcases Nat.eq_zero_or_eq_succ_pred s.sp.val with h | h
  · exact .inl h
  · exact .inr ⟨_, by omega, h⟩

theorem exec_ret_effect (s : State) : ∃ t, exec .ret s = .next t ∧ Effect s t := by
  rcases s.sp_cases with h | ⟨k, hk, h⟩
  · exact ⟨_, exec_ret_of_empty h, .raises s _ _ rfl (by decide) id⟩
  · exact ⟨_, exec_ret_of_pos hk h, .returns k hk h⟩

theorem addrOperand_le (nnn : Addr) : (addrOperand nnn).toNat ≤ 0xFFF := by
  rw [addrOperand_toNat]
  exact Nat.le_of_lt_succ nnn.isLt

theorem exec_callAddr_effect (nnn : Addr) (s : State) :
    ∃ t, exec (.callAddr nnn) s = .next t ∧ Effect s t := by
  rcases Nat.lt_or_eq_of_le (Nat.le_of_lt_succ s.sp.isLt) with h | h
  · exact ⟨_, exec_callAddr_of_free nnn h, .calls _ (addrOperand_le nnn) h⟩
  · exact ⟨_, exec_callAddr_of_full nnn h, .raises s _ _ rfl (by decide) id⟩

@[simp] theorem byteOperand_toNat (b : Byte) : (byteOperand b).toNat = b.toNat :=
  BitVec.toNat_setWidth_of_le (by decide)

/-- NNN + V[0] needs no reduction at 16 bits (R118). -/
theorem addrOperand_add_byteOperand_toNat (nnn : Addr) (b : Byte) :
    (addrOperand nnn + byteOperand b).toNat = nnn.toNat + b.toNat := by
  have hn := nnn.isLt
  have hb := b.isLt
  rw [BitVec.toNat_add, addrOperand_toNat, byteOperand_toNat]
  omega

theorem addrOperand_add_byteOperand_le (nnn : Addr) (b : Byte) :
    (addrOperand nnn + byteOperand b).toNat ≤ 0x10FE := by
  have hn := nnn.isLt
  have hb := b.isLt
  rw [addrOperand_add_byteOperand_toNat]
  omega

theorem exec_drw_effect (x y : Reg) (n : Nibble) (s : State) :
    ∃ t, exec (.drw x y n) s = .next t ∧ Effect s t := by
  obtain ⟨t, hframe, _, h⟩ := (s.writeV vf 0).drawRows_outcome (s.readV x).toNat (s.readV y).toNat
    (List.range n.toNat)
  refine Effect.of_finish (by rw [hframe]; rfl) ?_ h
  rw [hframe]
  exact id

theorem storeBytes_effect (s : State) (a : Nat) (bs : List Byte) :
    ∃ t, (s.storeBytes a bs).finish = .next t ∧ Effect s t := by
  obtain ⟨m, hwf, h⟩ := s.storeBytes_outcome a bs
  exact Effect.of_finish (t := { s with mem := m }) rfl hwf h

theorem loadRegs_effect (s : State) (a : Nat) (rs : List Reg) :
    ∃ t, (s.loadRegs a rs).finish = .next t ∧ Effect s t := by
  obtain ⟨t, hframe, _, h⟩ := s.loadRegs_outcome a rs
  refine Effect.of_finish (by rw [hframe]) ?_ h
  rw [hframe]
  exact id

/-- Every instruction answers a next state, in one of the six ways. -/
theorem exec_effect (i : Instr) (s : State) : ∃ t, exec i s = .next t ∧ Effect s t := by
  cases i with
  | ret => exact exec_ret_effect s
  | sysAddr nnn => exact ⟨_, rfl, .raises s _ _ rfl (by decide) id⟩
  | jpAddr nnn => exact ⟨_, rfl, .jumps _ (Nat.le_trans (addrOperand_le nnn) (by decide))⟩
  | callAddr nnn => exact exec_callAddr_effect nnn s
  | jpV0Addr nnn => exact ⟨_, rfl, .jumps _ (addrOperand_add_byteOperand_le nnn _)⟩
  | seByte | sneByte | seReg | sneReg | skp | sknp => exact ⟨_, rfl, .of_skipIf s _⟩
  | drw x y n => exact exec_drw_effect x y n s
  | ldVxK x => exact ⟨_, rfl, .waits x⟩
  | ldBVx | ldMemVx => exact storeBytes_effect s _ _
  | ldVxMem => exact loadRegs_effect s _ _
  | cls | ldByte | addByte | ldReg | orReg | andReg | xorReg | addReg | subReg | shr | subnReg | shl
  | ldIAddr | rndByte | ldVxDt | ldDtVx | ldStVx | addIVx | ldFVx =>
    exact ⟨_, rfl, .of_advance rfl id⟩

/-- What holds after every effect holds after every instruction. -/
theorem effect_of_exec {i : Instr} {s t : State} (h : exec i s = .next t) : Effect s t := by
  obtain ⟨u, hu, he⟩ := exec_effect i s
  rw [hu] at h
  cases h
  exact he

/-! ### What no instruction changes, and what a raise keeps -/

/-- No instruction touches the keys, the on/off flag, the accumulators, the output latches or the
inputs of the tick and the loop (R44). -/
theorem Effect.keeps_outside {s t : State} (h : Effect s t) :
    t.keys = s.keys ∧ t.isOn = s.isOn ∧ t.cycleAcc = s.cycleAcc ∧ t.timerAcc = s.timerAcc ∧
    t.beepOut = s.beepOut ∧ t.frameOut = s.frameOut ∧ t.deltaUs = s.deltaUs ∧
    t.keyIn = s.keyIn ∧ t.quitIn = s.quitIn := by
  cases h with
  | completes t frame => rw [frame]; simp
  | jumps | calls | returns | waits => simp
  | raises t c d frame => rw [frame]; simp

/-- An instruction completes, or begins a key-wait with the pc kept, or raises; in the first two
cases the fault record stays. -/
theorem Effect.mode_cases {s t : State} (h : Effect s t) :
    (t.mode = s.mode ∧ t.fault = s.fault) ∨
    ((∃ x, t.mode = .waitKey x) ∧ t.fault = s.fault ∧ t.pc = s.pc) ∨
    (t.mode = .faulted ∧ t.fault.cause ≠ .none ∧
      t = { s with
        v := t.v, mem := t.mem, fb := t.fb, dirty := t.dirty, fault := t.fault
        mode := t.mode }) := by
  cases h with
  | completes t frame => rw [frame]; simp
  | jumps | calls | returns => simp
  | waits x => exact .inr (.inl ⟨⟨x, rfl⟩, rfl, rfl⟩)
  | raises t c d frame cause => exact .inr (.inr ⟨rfl, cause, by rw [frame]; rfl⟩)

/-! ### The tables of writers -/

/-- What the tables of writers do not give an instruction is as before it (R21, R44). -/
structure KeepsUnwritten (ins : Instr) (s t : State) : Prop where
  v : ∀ r, writesReg ins r = false → t.readV r = s.readV r
  i : ¬ writesI ins → t.i = s.i
  stack : ¬ writesStack ins → t.stack = s.stack ∧ t.sp = s.sp
  mem : ¬ writesMem ins → t.mem = s.mem
  fb : ¬ writesFb ins → t.fb = s.fb ∧ t.dirty = s.dirty
  dt : (∀ x, ins ≠ .ldDtVx x) → t.dt = s.dt
  st : (∀ x, ins ≠ .ldStVx x) → t.st = s.st

/-- An instruction that changes, of the state the tables speak of, registers alone. -/
theorem KeepsUnwritten.of_registers {ins : Instr} {s t : State}
    (frame : t = { s with
      v := t.v, pc := t.pc, mode := t.mode, fault := t.fault, rndIn := t.rndIn
      samples := t.samples })
    (v : ∀ r, writesReg ins r = false → t.readV r = s.readV r) : KeepsUnwritten ins s t := by
  refine ⟨v, ?_, ?_, ?_, ?_, ?_, ?_⟩ <;> intro _ <;> rw [frame]
  all_goals exact ⟨rfl, rfl⟩

/-- An instruction that may raise changes, beside what its accesses do, the pc, the mode and the
fault record alone. -/
theorem finish_frame {r : Access Unit} {u t : State}
    (hr : r = .done () u ∨ ∃ d, r = .raised (u.raise .invalidAddress d)) (h : r.finish = .next t) :
    t = { u with pc := t.pc, mode := t.mode, fault := t.fault } := by
  rcases hr with rfl | ⟨d, rfl⟩ <;> cases h <;> rfl

theorem exec_ret_keeps {s t : State} (h : exec .ret s = .next t) : KeepsUnwritten .ret s t := by
  rcases s.sp_cases with hsp | ⟨k, hk, hsp⟩
  · cases (exec_ret_of_empty hsp).symm.trans h
    exact .of_registers rfl fun _ _ => rfl
  · cases (exec_ret_of_pos hk hsp).symm.trans h
    constructor <;> simp [State.readV, writesStack]

theorem exec_callAddr_keeps {nnn : Addr} {s t : State} (h : exec (.callAddr nnn) s = .next t) :
    KeepsUnwritten (.callAddr nnn) s t := by
  rcases Nat.lt_or_eq_of_le (Nat.le_of_lt_succ s.sp.isLt) with hsp | hsp
  · cases (exec_callAddr_of_free nnn hsp).symm.trans h
    constructor <;> simp [State.readV, writesStack]
  · cases (exec_callAddr_of_full nnn hsp).symm.trans h
    exact .of_registers rfl fun _ _ => rfl

theorem exec_drw_keeps {x y : Reg} {n : Nibble} {s t : State} (h : exec (.drw x y n) s = .next t) :
    KeepsUnwritten (.drw x y n) s t := by
  obtain ⟨u, hframe, hv, hr⟩ := (s.writeV vf 0).drawRows_outcome (s.readV x).toNat (s.readV y).toNat
    (List.range n.toNat)
  have hv' : ∀ r, r ≠ 15 → u.readV r = s.readV r := fun r h15 => (hv r h15).trans (by simp [h15])
  rw [finish_frame hr h, hframe]
  constructor
  case v => exact fun r h15 => hv' r (by simpa [writesReg] using h15)
  all_goals simp [writesFb]

theorem storeBytes_keeps {ins : Instr} {s t : State} {a : Nat} {bs : List Byte} (hw : writesMem ins)
    (h : (s.storeBytes a bs).finish = .next t) : KeepsUnwritten ins s t := by
  obtain ⟨m, _, hr⟩ := s.storeBytes_outcome a bs
  rw [finish_frame hr h]
  constructor <;> simp [State.readV, hw]

theorem exec_ldVxMem_keeps {x : Reg} {s t : State} (h : exec (.ldVxMem x) s = .next t) :
    KeepsUnwritten (.ldVxMem x) s t := by
  obtain ⟨u, hframe, hv, hr⟩ := s.loadRegs_outcome s.base (regsThrough x)
  rw [finish_frame hr h, hframe]
  refine .of_registers rfl fun r hr => hv r ?_
  simpa [writesReg, mem_regsThrough] using hr

/-- Every instruction keeps what the tables of writers do not give it. -/
theorem exec_keepsUnwritten {ins : Instr} {s t : State} (h : exec ins s = .next t) :
    KeepsUnwritten ins s t := by
  cases ins with
  | ret => exact exec_ret_keeps h
  | callAddr nnn => exact exec_callAddr_keeps h
  | drw x y n => exact exec_drw_keeps h
  | ldBVx x => exact storeBytes_keeps (.inl ⟨x, rfl⟩) h
  | ldMemVx x => exact storeBytes_keeps (.inr ⟨x, rfl⟩) h
  | ldVxMem x => exact exec_ldVxMem_keeps h
  | sysAddr | jpAddr | jpV0Addr | seByte | sneByte | seReg | sneReg | skp | sknp | ldVxK =>
    cases h
    exact .of_registers rfl fun _ _ => rfl
  | ldByte | addByte | ldReg | orReg | andReg | xorReg | rndByte | ldVxDt
  | addReg | subReg | shr | subnReg | shl =>
    cases h
    refine .of_registers rfl fun r hr => ?_
    simp_all [writesReg]
  | cls | ldIAddr | addIVx | ldFVx | ldDtVx | ldStVx =>
    cases h
    constructor <;> simp [State.readV, writesFb, writesI]

/-! ### The obligations -/

/-- Settles O11: SYS and the other raises answer a next state too. -/
theorem everyInstructionAnswersNext : Obligations.EveryInstructionAnswersNext := by
  intro i s
  obtain ⟨t, ht, _⟩ := exec_effect i s
  exact ⟨t, ht⟩

/-- Settles O12: of the ways an instruction ends, only the raise ends in FAULTED from another mode.
-/
theorem raisingInstructionKeepsPc : Obligations.RaisingInstructionKeepsPc := by
  intro i s t hrun h hfaulted
  rcases (effect_of_exec h).mode_cases with ⟨hm, _⟩ | ⟨⟨x, hx⟩, _⟩ | ⟨_, hcause, hframe⟩
  · exact absurd (hm.symm.trans hfaulted) hrun
  · cases hx.symm.trans hfaulted
  · rw [hframe]
    exact ⟨rfl, rfl, rfl, rfl, rfl, rfl, rfl, rfl, hcause⟩

/-- Settles O47: the table's column of R21, instruction by instruction. -/
theorem registersChangeOnlyByTheirWriters : Obligations.RegistersChangeOnlyByTheirWriters := by
  intro i s t h
  exact (exec_keepsUnwritten h).v

/-- Settles O48: the tables of writers, and the fields that no instruction has. -/
theorem stateChangesOnlyByItsInstructions : Obligations.StateChangesOnlyByItsInstructions := by
  intro i s t h
  have hk := exec_keepsUnwritten h
  exact ⟨hk.i, hk.stack, hk.mem, hk.fb, hk.dt, hk.st, (effect_of_exec h).keeps_outside⟩

end Sys2Proof.Machine
end

section
/-! PROOF. The outer loop: what the gates do, and that an iteration is at most one CPU step and then
at most one tick (spec/30_encoding.md R80; spec/70_reset_and_hazards.md R261, R262). -/

namespace Sys2Proof.Machine

/-! ### The four parts of a tick, field by field -/

theorem State.tickDevices_v (s : State) : s.tickDevices.v = s.v := by rw [State.tickDevices_eq]

theorem State.tickDevices_pc (s : State) : s.tickDevices.pc = s.pc := by rw [State.tickDevices_eq]

theorem State.tickDevices_mode (s : State) : s.tickDevices.mode = s.mode := by
  rw [State.tickDevices_eq]

theorem State.tickDevices_isOn (s : State) :
    s.tickDevices.isOn = if s.quitIn then false else s.isOn := by rw [State.tickDevices_eq]

theorem State.tickDevices_keys (s : State) : s.tickDevices.keys = s.keyIn := by
  rw [State.tickDevices_eq]

/-! ### The tick gate -/

/-- The tick gate with a tick due: the tick, and what is left of the accumulator. -/
theorem State.tickGate_due {s : State} (h : s.active = true) (ht : 16666 < s.timerAcc) :
    s.tickGate = { s.tick60 with timerAcc := s.timerAcc % 16666 } := by
  obtain ⟨_, _, _, _, _, _, _, htimer, _⟩ := s.tick60_keeps
  rw [State.tickGate_open h ht, htimer]

/-- Everything the tick gate can do: one tick in a core that runs or waits, or nothing. -/
theorem State.tickGate_cases (s : State) :
    (s.active = true ∧ s.tickGate = { s.tick60 with timerAcc := s.timerAcc % 16666 }) ∨
    ((s.active = false ∨ s.timerAcc ≤ 16666) ∧ s.tickGate = s) := by
  cases ha : s.active with
  | false => exact .inr ⟨.inl rfl, State.tickGate_closed (.inl ha)⟩
  | true =>
    rcases Nat.lt_or_ge 16666 s.timerAcc with ht | ht
    · exact .inl ⟨rfl, State.tickGate_due ha ht⟩
    · exact .inr ⟨.inr ht, State.tickGate_closed (.inr ht)⟩

theorem State.active_of_mode {s : State} (h : s.mode = .run ∨ ∃ x, s.mode = .waitKey x) :
    s.active = true := s.active_iff.2 h

theorem State.inactive_of_mode {s : State} (h : s.mode = .off ∨ s.mode = .faulted) :
    s.active = false := by
  rcases h with h | h <;> simp [State.active, h]

/-! ### An iteration, by mode and cycle gate -/

/-- With the cycle gate closed no instruction runs. -/
theorem step_of_gate_closed {s : State} (h : s.active = true) (hc : s.addTime.cycleAcc ≤ 1666) :
    step s = .next s.addTime.tickGate.nextSamples := by
  rw [step_active h, cycleGate_closed hc, mapNext_next]

/-- With the cycle gate open, RUN takes one CPU step. -/
theorem step_of_gate_open {s : State} (h : s.mode = .run) (hc : 1666 < s.addTime.cycleAcc) :
    step s = mapNext (fun t => t.clearCycle.tickGate.nextSamples) (cpuStep s.addTime) := by
  rw [step_active (State.active_of_mode (.inl h)), cycleGate_open hc,
    stepIfRunning_run (s := s.addTime) h, mapNext_mapNext]

/-- With the cycle gate open, WAIT_KEY clears the accumulator and takes no CPU step. -/
theorem step_of_gate_open_waiting {s : State} {x : Reg} (h : s.mode = .waitKey x)
    (hc : 1666 < s.addTime.cycleAcc) :
    step s = .next s.addTime.clearCycle.tickGate.nextSamples := by
  rw [step_active (State.active_of_mode (.inr ⟨x, h⟩)), cycleGate_open hc,
    stepIfRunning_wait (s := s.addTime) h, mapNext_next, mapNext_next]

/-! ### The CPU step answers a next state, in one of the ways of an instruction -/

/-- A fetch or decode error is a raise that has written nothing. -/
theorem State.raise_effect (s : State) {c : Cause} (d : Nat) (hc : c ≠ .none) :
    Effect s (s.raise c d) := .raises s c d rfl hc id

theorem cpuStep_effect (s : State) : ∃ t, cpuStep s = .next t ∧ Effect s t := by
  rcases cpuStep_cases s with ⟨_, i, _, _, _, h⟩ | ⟨op, _, _, _, _, h⟩ | ⟨_, h⟩
  · rw [h]
    exact exec_effect i s
  · exact ⟨_, h, s.raise_effect _ (by decide)⟩
  · exact ⟨_, h, s.raise_effect _ (by decide)⟩

theorem effect_of_cpuStep {s t : State} (h : cpuStep s = .next t) : Effect s t := by
  obtain ⟨u, hu, he⟩ := cpuStep_effect s
  cases hu.symm.trans h
  exact he

/-- In an active core the outer loop always has a next state. -/
theorem step_next_of_active {s : State} (h : s.active = true) : ∃ t, step s = .next t := by
  rcases Nat.lt_or_ge 1666 s.addTime.cycleAcc with hc | hc
  · rcases s.active_iff.1 h with hr | ⟨x, hx⟩
    · obtain ⟨u, hu, _⟩ := cpuStep_effect s.addTime
      exact ⟨_, by rw [step_of_gate_open hr hc, hu, mapNext_next]⟩
    · exact ⟨_, step_of_gate_open_waiting hx hc⟩
  · exact ⟨_, step_of_gate_closed h hc⟩

/-! ### What differs by time and inputs alone -/

/-- The tick gate and the next samples are at most one tick, but for time and inputs. -/
theorem State.tickGate_nextSamples_isTick (s : State) :
    ∃ d, (d = s ∨ (s.active = true ∧ d = s.tick60)) ∧ d.SameButForTime s.tickGate.nextSamples := by
  rcases s.tickGate_cases with ⟨ha, h⟩ | ⟨_, h⟩ <;> rw [h]
  · exact ⟨s.tick60, .inr ⟨ha, rfl⟩, rfl⟩
  · exact ⟨s, .inl rfl, rfl⟩

/-! ### The obligations -/

/-- Settles O5: the iteration unfolded at its two gates. -/
theorem stepRunsDecodedInstruction : Obligations.StepRunsDecodedInstruction := by
  rintro s u hrun rfl
  have hopen : 1666 < s.addTime.cycleAcc →
      step s = mapNext (fun t => t.clearCycle.tickGate.nextSamples) (cpuStep s.addTime) :=
    step_of_gate_open hrun
  refine ⟨hopen, fun i hc hpc hdecode => ?_, ?_⟩
  · have hstep : cpuStep s.addTime = exec i s.addTime :=
      cpuStep_decoded (State.fetch_done s.addTime hpc) hdecode
    exact hstep ▸ hopen hc
  · exact step_of_gate_closed (State.active_of_mode (.inl hrun))

/-- Settles O6: the state the tick gate sees is the one with the time added, its cycle_acc cleared
when the cycle gate was open. -/
theorem waitingCoreTakesNoCpuStep : Obligations.WaitingCoreTakesNoCpuStep := by
  intro s x hx
  rcases Nat.lt_or_ge 1666 (s.cycleAcc + s.deltaUs) with hc | hc
  · exact ⟨s.addTime.clearCycle, .inr rfl, (if_pos hc).symm, step_of_gate_open_waiting hx hc⟩
  · exact ⟨s.addTime, .inl rfl, (if_neg (Nat.not_lt.2 hc)).symm,
      step_of_gate_closed (State.active_of_mode (.inr ⟨x, hx⟩)) hc⟩

/-- Settles O7: the outer loop by mode; no instruction stands in its way in RUN. -/
theorem runEndsExactlyInOffAndFaulted : Obligations.RunEndsExactlyInOffAndFaulted := by
  intro s
  exact ⟨step_off, step_faulted, fun h => step_next_of_active (State.active_of_mode h)⟩

/-- Settles O8: the CPU step, where there is one, is taken on the state with the time added, and the
tick, where there is one, on the state after it. -/
theorem iterationIsAtMostStepThenTick : Obligations.IterationIsAtMostStepThenTick := by
  intro s t h
  obtain ⟨_, ⟨_, rfl⟩ | ⟨_, rfl⟩ | ⟨hrun, u, hu, rfl⟩⟩ := step_cases h
  · obtain ⟨d, hd, ht⟩ := s.addTime.tickGate_nextSamples_isTick
    exact ⟨s, s, s.addTime, d, rfl, .inl rfl, rfl, hd, ht⟩
  · obtain ⟨d, hd, ht⟩ := s.addTime.clearCycle.tickGate_nextSamples_isTick
    exact ⟨s, s, s.addTime.clearCycle, d, rfl, .inl rfl, rfl, hd, ht⟩
  · obtain ⟨d, hd, ht⟩ := u.clearCycle.tickGate_nextSamples_isTick
    exact ⟨s.addTime, u, u.clearCycle, d, rfl, .inr ⟨hrun, hu⟩, rfl, hd, ht⟩

/-- Settles O60: the two cases of the gate. -/
theorem tickGateTakesOneTickWhenDue : Obligations.TickGateTakesOneTickWhenDue := by
  intro s
  constructor
  · exact fun hm => State.tickGate_due (State.active_of_mode hm)
  · rintro (h | h | h)
    · exact State.tickGate_closed (.inl (State.inactive_of_mode (.inl h)))
    · exact State.tickGate_closed (.inl (State.inactive_of_mode (.inr h)))
    · exact State.tickGate_closed (.inr h)

/-- Settles O9: the word is the two bytes appended, and a fetch error is the step's only action. -/
theorem fetchIsBigEndianAndBounded : Obligations.FetchIsBigEndianAndBounded := by
  intro s
  refine ⟨fun h => ⟨_, s.fetch_done h, ?_⟩, fun h => ?_⟩
  · rw [BitVec.toNat_append, ← Nat.shiftLeft_add_eq_or_of_lt (s.mem.read (s.pc.toNat + 1)).isLt,
      Nat.shiftLeft_eq]
  · have hstep : cpuStep s = .next (s.raise .invalidAddress (s.pc.toNat + 1)) := by
      simp only [cpuStep, s.fetch_raised h]
    have hpc := s.pc.isLt
    exact ⟨_, hstep, rfl, s.raise_datum _ (by omega), rfl, rfl⟩

/-- Settles O10: the decode error is raised on the state of the fetch, which changed nothing. -/
theorem undecodableWordRaises : Obligations.UndecodableWordRaises := by
  intro s op e hfetch hdecode
  have hstep : cpuStep s = .next (s.raise .unimplementedOpcode op.toNat) := by
    simp only [cpuStep, hfetch, hdecode]
  have hop := op.isLt
  exact ⟨_, hstep, rfl, s.raise_datum _ (by omega), rfl, rfl⟩

end Sys2Proof.Machine
end

section
/-! PROOF. The invariants of a run: canonical memory, the pc's range, mode against flag and fault
record, and settled gates (spec/10_state.md R27, R37, R39, R42; spec/20_memory.md R50;
spec/70_reset_and_hazards.md R250 to R254, R262). -/

namespace Sys2Proof.Machine

/-! ### One induction for a step: time, CPU step, tick, samples -/

/-- A property that the passing of time, a CPU step in RUN, the tick gate and the next samples keep
is kept by every step. -/
theorem step_keeps {P : State → Prop} (time : ∀ s, P s → P s.addTime)
    (cpu : ∀ s t, P s → s.mode = .run → cpuStep s = .next t → P t)
    (clear : ∀ s, P s → P s.clearCycle) (tick : ∀ s, P s → P s.tickGate)
    (samples : ∀ s, P s → P s.nextSamples) {s t : State} (hs : P s) (h : step s = .next t) :
    P t := by
  have ha : P s.addTime := time s hs
  obtain ⟨_, ⟨_, rfl⟩ | ⟨_, rfl⟩ | ⟨hrun, u, hu, rfl⟩⟩ := step_cases h
  · exact samples _ (tick _ ha)
  · exact samples _ (tick _ (clear _ ha))
  · exact samples _ (tick _ (clear _ (cpu _ u ha hrun hu)))

/-! ### Canonical memory -/

theorem Effect.mem_wf {s t : State} (h : Effect s t) (hwf : s.mem.wf) : t.mem.wf := by
  cases h with
  | completes t frame pc mem => exact mem hwf
  | jumps | calls | returns | waits => exact hwf
  | raises t c d frame cause mem => exact mem hwf

theorem State.tickGate_mem (s : State) : s.tickGate.mem = s.mem := by
  rcases s.tickGate_cases with ⟨_, h⟩ | ⟨_, h⟩ <;> rw [h]
  obtain ⟨hmem, _⟩ := s.tick60_keeps
  exact hmem

/-! ### The range of the pc -/

/-- Outside WAIT_KEY the range says nothing of the mode. -/
theorem State.pcInRange_of_not_waiting {s : State} (hpc : s.pc.toNat ≤ 0x10FE)
    (hstack : ∀ k (h : k < 16), (s.stack[k]).toNat ≤ 0x1000) (hm : ∀ x, s.mode ≠ .waitKey x) :
    s.PcInRange := ⟨hpc, hstack, fun x hx => absurd hx (hm x)⟩

/-- An instruction that stood at a fetchable address in RUN. -/
theorem Effect.pcInRange {s t : State} (h : Effect s t) (hs : s.PcInRange) (hrun : s.mode = .run)
    (hpc : s.pc.toNat ≤ 0xFFE) : t.PcInRange := by
  obtain ⟨_, hstack, _⟩ := hs
  have hnext : (s.pc + 2).toNat ≤ 0x1000 := by bv_omega
  cases h with
  | completes t frame pc =>
    have hskip : (s.pc + 4).toNat ≤ 0x1002 := by bv_omega
    refine State.pcInRange_of_not_waiting ?_ ?_ ?_
    · rcases pc with h | h <;> rw [h] <;> omega
    · rw [frame]; exact hstack
    · rw [frame]; simp [hrun]
  | jumps target bound => exact State.pcInRange_of_not_waiting bound hstack (by simp [hrun])
  | calls target bound free =>
    refine State.pcInRange_of_not_waiting (Nat.le_trans bound (by decide)) ?_ (by simp [hrun])
    intro k hk
    simp only [Vector.getElem_set]
    split
    · exact hnext
    · exact hstack k hk
  | returns k hk =>
    exact State.pcInRange_of_not_waiting (Nat.le_trans (hstack k hk) (by decide)) hstack
      (by simp [hrun])
  | waits x => exact ⟨Nat.le_trans hpc (by decide), hstack, fun _ _ => hpc⟩
  | raises t c d frame =>
    rw [frame]
    exact State.pcInRange_of_not_waiting (Nat.le_trans hpc (by decide)) hstack (by simp)

/-- A raise ends the run with the pc and the stack as they are. -/
theorem State.PcInRange.raise {s : State} (hs : s.PcInRange) (c : Cause) (d : Nat) :
    (s.raise c d).PcInRange := by
  obtain ⟨hpc, hstack, _⟩ := hs
  exact State.pcInRange_of_not_waiting hpc hstack (by simp)

theorem State.PcInRange.cpuStep {s t : State} (hs : s.PcInRange) (hrun : s.mode = .run)
    (h : cpuStep s = .next t) : t.PcInRange := by
  rcases cpuStep_cases s with ⟨_, i, _, _, hpc, hstep⟩ | ⟨_, _, _, _, _, hstep⟩ | ⟨_, hstep⟩
  · exact (effect_of_exec (hstep.symm.trans h)).pcInRange hs hrun hpc
  · cases hstep.symm.trans h
    exact hs.raise _ _
  · cases hstep.symm.trans h
    exact hs.raise _ _

/-- A tick moves the pc of a waiting core alone, by one instruction, and ends the wait with it. -/
theorem State.PcInRange.tick60 {s : State} (hs : s.PcInRange) : s.tick60.PcInRange := by
  obtain ⟨hpc, hstack, hwait⟩ := hs
  obtain ⟨_, _, hst, _⟩ := s.tick60_keeps
  have hstack' : ∀ k (h : k < 16), (s.tick60.stack[k]).toNat ≤ 0x1000 := by rw [hst]; exact hstack
  rcases s.tick60_pc_mode with ⟨hp, hm | hm⟩ | ⟨⟨x, hx⟩, hp, hm⟩
  · exact ⟨hp ▸ hpc, hstack', fun x hx => hp ▸ hwait x (hm.symm.trans hx)⟩
  · exact State.pcInRange_of_not_waiting (hp ▸ hpc) hstack' (by simp [hm])
  · have hle := hwait x hx
    refine State.pcInRange_of_not_waiting ?_ hstack' ?_
    · rw [hp]; bv_omega
    · rcases hm with hm | hm <;> simp [hm]

theorem State.PcInRange.tickGate {s : State} (hs : s.PcInRange) : s.tickGate.PcInRange := by
  rcases s.tickGate_cases with ⟨_, h⟩ | ⟨_, h⟩ <;> rw [h]
  · exact hs.tick60
  · exact hs

/-! ### Mode, on/off flag and fault record -/

/-- In an active core the flag is set and no fault is recorded. -/
theorem State.modeConsistent_iff_of_active {s : State} (h : s.active = true) :
    s.ModeConsistent ↔ s.isOn = true ∧ s.fault.cause = .none := by
  rcases s.active_iff.1 h with hm | ⟨x, hm⟩ <;> simp [State.ModeConsistent, hm]

theorem Effect.modeConsistent {s t : State} (h : Effect s t) (hs : s.ModeConsistent)
    (hrun : s.mode = .run) : t.ModeConsistent := by
  obtain ⟨hon, hnone⟩ :=
    (State.modeConsistent_iff_of_active (State.active_of_mode (.inl hrun))).1 hs
  obtain ⟨_, hon', _⟩ := h.keeps_outside
  have hactive : (t.mode = .run ∨ ∃ x, t.mode = .waitKey x) → t.fault = s.fault →
      t.ModeConsistent :=
    fun hm hf => (State.modeConsistent_iff_of_active (State.active_of_mode hm)).2
      ⟨hon'.trans hon, hf ▸ hnone⟩
  rcases h.mode_cases with ⟨hm, hf⟩ | ⟨hm, hf, _⟩ | ⟨hm, hcause, _⟩
  · exact hactive (.inl (hm.trans hrun)) hf
  · exact hactive (.inr hm) hf
  · simp [State.ModeConsistent, hm, hcause, hon', hon]

/-- A tick of an active core ends in OFF exactly when the flag is 0 after it, and never in FAULTED.
-/
theorem State.tick60_mode {s : State} (h : s.active = true) :
    (s.tick60.mode = .off ∧ s.tick60.isOn = false) ∨
    (s.tick60.active = true ∧ s.tick60.isOn = true) := by
  have ha : s.tickDevices.active = true := by rw [State.active, s.tickDevices_mode]; exact h
  rcases s.tick60_cases with ⟨x, _, ht⟩ | ⟨_, ht⟩ <;> rw [ht]
  · unfold State.keyWaitScan
    cases hon : s.tickDevices.isOn with
    | false => exact .inl ⟨rfl, hon⟩
    | true =>
      split
      · contradiction
      · split
        · exact .inr ⟨rfl, hon⟩
        · exact .inr ⟨ha, hon⟩
  · cases hon : s.tickDevices.isOn with
    | false => exact .inl ⟨rfl, hon⟩
    | true => exact .inr ⟨ha, hon⟩

theorem State.ModeConsistent.tickGate {s : State} (hs : s.ModeConsistent) :
    s.tickGate.ModeConsistent := by
  rcases s.tickGate_cases with ⟨ha, h⟩ | ⟨_, h⟩ <;> rw [h]
  · obtain ⟨_, hnone⟩ := (State.modeConsistent_iff_of_active ha).1 hs
    obtain ⟨_, _, _, _, _, hfault, _⟩ := s.tick60_keeps
    have hcause : s.tick60.fault.cause = .none := hfault ▸ hnone
    change s.tick60.ModeConsistent
    rcases State.tick60_mode ha with ⟨hm, hon⟩ | ⟨hactive, hon⟩
    · simp [State.ModeConsistent, hm, hon, hcause]
    · exact (State.modeConsistent_iff_of_active hactive).2 ⟨hon, hcause⟩
  · exact hs

/-! ### Settled gates -/

theorem State.tickGate_cycleAcc (s : State) : s.tickGate.cycleAcc = s.cycleAcc := by
  rcases s.tickGate_cases with ⟨_, h⟩ | ⟨_, h⟩ <;> rw [h]
  obtain ⟨_, _, _, _, _, _, hcycle, _⟩ := s.tick60_keeps
  exact hcycle

/-- After the tick gate no tick is due in an active core. -/
theorem State.tickGate_timerAcc_le {s : State} (h : s.tickGate.active = true) :
    s.tickGate.timerAcc ≤ 16666 := by
  rcases s.tickGate_cases with ⟨_, hg⟩ | ⟨hn, hg⟩ <;> rw [hg] at h ⊢
  · exact Nat.le_of_lt (Nat.mod_lt _ (by decide))
  · exact hn.resolve_left (by simp [h])

/-- The tick gate settles both gates once the cycle gate is settled. -/
theorem State.tickGate_gatesSettled {s : State} (h : s.cycleAcc ≤ 1666) :
    s.tickGate.nextSamples.GatesSettled :=
  fun ha => ⟨Nat.le_trans (Nat.le_of_eq s.tickGate_cycleAcc) h, State.tickGate_timerAcc_le ha⟩

/-! ### The start of the invariants -/

theorem State.reset_inv : State.reset.Inv := by
  refine ⟨Memory.reset_wf, ?_, ?_, ?_⟩
  · exact (State.modeConsistent_iff_of_active rfl).2 ⟨rfl, rfl⟩
  · exact State.pcInRange_of_not_waiting (by decide) (by decide) (by decide)
  · exact fun _ => ⟨by decide, by decide⟩

/-- The invariants but for memory are of the fields a load does not write. -/
theorem State.Inv.of_mem {s : State} (hs : s.Inv) {m : Memory} (hm : m.wf) :
    State.Inv { s with mem := m } := by
  obtain ⟨_, hmode, hpc, hgates⟩ := hs
  exact ⟨hm, hmode, hpc, hgates⟩

/-- A raise in a core that is on keeps the invariants: it ends the run with a cause. -/
theorem State.Inv.raise {s : State} (hs : s.Inv) (hon : s.isOn = true) {c : Cause} (hc : c ≠ .none)
    (d : Nat) : (s.raise c d).Inv := by
  obtain ⟨hmem, _, hpc, _⟩ := hs
  refine ⟨hmem, ?_, hpc.raise c d, ?_⟩
  · simp [State.ModeConsistent, hon, hc]
  · intro ha
    simp [State.active] at ha

theorem State.powerOn_accepted {rom : List Byte} (h : rom.length ≤ 3584) :
    State.powerOn rom = { State.reset with mem := Memory.writeAll [] 0x200 rom } := by
  rw [State.powerOn, State.load, if_neg (Nat.not_lt.2 h)]
  rfl

theorem State.powerOn_rejected {rom : List Byte} (h : 3584 < rom.length) :
    State.powerOn rom = State.raise
      { State.reset with mem := Memory.writeAll [] 0 (List.replicate font.length 0) }
      .invalidRomSize 0 := by
  rw [State.powerOn, State.load, if_pos h]

/-! ### The obligations -/

/-- Settles O55: an instruction keeps the form, and the rest of an iteration writes no memory. -/
theorem stepKeepsMemoryCanonical : Obligations.StepKeepsMemoryCanonical := by
  intro s t hs h
  refine step_keeps (P := fun s => s.mem.wf) (fun _ => id) ?_ (fun _ => id) ?_ (fun _ => id) hs h
  · exact fun u v hu _ hstep => (effect_of_cpuStep hstep).mem_wf hu
  · exact fun u hu => u.tickGate_mem.symm ▸ hu

/-- Settles O56: with the stack and the waiting pc, the range is inductive. -/
theorem stepKeepsPcInRange : Obligations.StepKeepsPcInRange := by
  intro s t hs h
  exact step_keeps (fun _ => id) (fun _ _ => State.PcInRange.cpuStep) (fun _ => id)
    (fun _ => State.PcInRange.tickGate) (fun _ => id) hs h

/-- Settles O57: only a raise sets a cause, and only a tick turns the core off. -/
theorem stepKeepsModeConsistent : Obligations.StepKeepsModeConsistent := by
  intro s t hs h
  refine step_keeps (P := State.ModeConsistent) (fun _ => id) ?_ (fun _ => id)
    (fun _ => State.ModeConsistent.tickGate) (fun _ => id) hs h
  exact fun u v hu hrun hstep => (effect_of_cpuStep hstep).modeConsistent hu hrun

/-- Settles O58: the cycle gate was closed or has been cleared, and the tick gate comes last. -/
theorem stepSettlesTheGates : Obligations.StepSettlesTheGates := by
  intro s t h
  obtain ⟨_, ⟨hc, rfl⟩ | ⟨_, rfl⟩ | ⟨_, u, _, rfl⟩⟩ := step_cases h
  · exact State.tickGate_gatesSettled hc
  · exact State.tickGate_gatesSettled (Nat.zero_le _)
  · exact State.tickGate_gatesSettled (Nat.zero_le _)

/-- Settles O59: both outcomes of a load are reset but for a run of writes inside memory and, when
the image is rejected, one raise. -/
theorem powerOnMeetsTheInvariants : Obligations.PowerOnMeetsTheInvariants := by
  refine ⟨State.reset_inv, fun rom => ?_⟩
  rcases Nat.lt_or_ge 3584 rom.length with h | h
  · rw [State.powerOn_rejected h]
    have hwf := Memory.writeAll_wf (a := 0) (List.replicate font.length 0) Memory.reset_wf
      (by decide)
    exact (State.reset_inv.of_mem hwf).raise rfl (by decide) 0
  · rw [State.powerOn_accepted h]
    exact State.reset_inv.of_mem (Memory.writeAll_wf rom Memory.reset_wf (by omega))

end Sys2Proof.Machine
end

section
/-! PROOF. The call stack and the transfers that use it, and the two instructions whose operand is a
sum or a word (spec/10_state.md R30, R31; spec/40_control_flow.md R110, R111, R113, R118). -/

namespace Sys2Proof.Machine

/-! ### What the stack operations answer at their bounds, the datum as a vector -/

theorem State.push_full_word (s : State) (v : Word) (h : s.sp.val = 16) :
    s.push v =
      .raised { s with fault := ⟨.stackOverflow, s.pc.setWidth 17⟩, mode := .faulted } := by
  rw [s.push_full v h, s.raise_word]

theorem State.pop_empty_word (s : State) (h : s.sp.val = 0) :
    s.pop = .raised { s with fault := ⟨.stackUnderflow, s.pc.setWidth 17⟩, mode := .faulted } := by
  rw [s.pop_empty h, s.raise_word]

/-- SYS is a raise whose datum is its word: the top nibble of the word is 0 (R110). -/
theorem wordAddr_zero_toNat (nnn : Addr) : (wordAddr 0x0#4 nnn).toNat = nnn.toNat := by
  rw [wordAddr, BitVec.toNat_append]
  simp

/-! ### The obligations -/

/-- Settles O14: the two cases of each operation, and a slot read after the write of slot SP. -/
theorem pushAndPopAreBounded : Obligations.PushAndPopAreBounded := by
  intro s v
  refine ⟨s.push_full_word v, fun h => ?_, s.pop_empty_word, fun k hk h => ?_⟩
  · exact ⟨_, s.push_done v h, rfl, Vector.getElem_set_self _,
      fun k hk hne => Vector.getElem_set_ne h hk hne.symm, rfl⟩
  · exact ⟨_, s.pop_done k hk h, rfl, rfl⟩

/-- Settles O15: a push of pc + 2 followed by a jump, or the push's own error. -/
theorem callPushesReturnAddress : Obligations.CallPushesReturnAddress := by
  intro nnn s
  refine ⟨fun h => ?_, fun h => ?_⟩
  · exact ⟨_, exec_callAddr_of_free nnn h, addrOperand_toNat nnn, rfl, Vector.getElem_set_self _,
      fun k hk hne => Vector.getElem_set_ne h hk hne.symm, rfl⟩
  · rw [exec_callAddr_of_full nnn h, s.raise_word]

/-- Settles O16: a pop followed by a jump, or the pop's own error. -/
theorem returnTakesTopSlot : Obligations.ReturnTakesTopSlot := by
  intro s
  refine ⟨fun k hk h => ⟨_, exec_ret_of_pos hk h, rfl, rfl, rfl⟩, fun h => ?_⟩
  rw [exec_ret_of_empty h, s.raise_word]

/-- Settles O17: the slot the RET pops is the one the CALL wrote. -/
theorem callThenReturnResumesAfterCall : Obligations.CallThenReturnResumesAfterCall := by
  intro nnn s t hfree hcall v pc
  cases (exec_callAddr_of_free nnn hfree).symm.trans hcall
  exact ⟨_, exec_ret_of_pos hfree rfl, Vector.getElem_set_self _, rfl, rfl, rfl⟩

/-- Settles O20: the sum of a 12-bit and an 8-bit number fits 16 bits. -/
theorem jumpAddsRegisterZero : Obligations.JumpAddsRegisterZero := by
  intro nnn s
  exact ⟨_, rfl, addrOperand_add_byteOperand_toNat nnn _, addrOperand_add_byteOperand_le nnn _, rfl⟩

/-- Settles O21: SYS is the raise, with NNN as the number its word is. -/
theorem sysAlwaysRaises : Obligations.SysAlwaysRaises := by
  intro nnn s
  have hlt : nnn.toNat < 2 ^ 17 := Nat.lt_trans nnn.isLt (by decide)
  have hdatum := (s.raise_datum .unimplementedOpcode hlt).trans (wordAddr_zero_toNat nnn).symm
  exact ⟨_, rfl, rfl, hdatum, rfl, rfl⟩

end Sys2Proof.Machine
end

section
/-! PROOF. Register results and the flag: the results with no flag, and the results whose flag is
written last (spec/41_arith_logic.md R131 to R145). -/

namespace Sys2Proof.Machine

/-! ### A flag is 0 or 1 -/

theorem flag_toNat (c : Bool) : (flag c).toNat = if c then 1 else 0 := by
  cases c <;> rfl

theorem carryFlag_toNat (a b : Byte) :
    (carryFlag a b).toNat = if a.toNat + b.toNat > 255 then 1 else 0 := by
  simp [carryFlag, flag_toNat]

theorem notBorrowFlag_toNat (a b : Byte) :
    (notBorrowFlag a b).toNat = if a.toNat ≥ b.toNat then 1 else 0 := by
  simp [notBorrowFlag, flag_toNat]

theorem lowBitFlag_toNat (a : Byte) : (lowBitFlag a).toNat = a.toNat % 2 := by
  have hbit : a.getLsbD 0 = decide (a.toNat % 2 = 1) := by simp [BitVec.getLsbD]
  rw [lowBitFlag, flag_toNat, hbit]
  rcases Nat.mod_two_eq_zero_or_one a.toNat with h | h <;> simp [h]

/-- A difference modulo 256: with a borrow, 256 more. -/
theorem sub_toNat (a b : Byte) :
    (a - b).toNat = if a.toNat ≥ b.toNat then a.toNat - b.toNat else 256 + a.toNat - b.toNat := by
  have ha := a.isLt
  have hb := b.isLt
  rw [BitVec.toNat_sub]
  split <;> omega

theorem shiftLeft_one_toNat (a : Byte) : (a <<< 1).toNat = 2 * a.toNat % 256 := by
  rw [BitVec.toNat_shiftLeft, Nat.shiftLeft_eq, Nat.mul_comm]

/-! ### A result in V[x] and a flag in VF, then the next instruction -/

/-- The flag is written last, so that it stays whatever x is; the result stays where x is not 15;
every other register, and all but V and pc, is as before (R24, R143). -/
theorem State.writeResultFlag_advance_spec (s : State) (x : Reg) (result f : Byte) :
    (x ≠ 15 → (s.writeResultFlag x result f).advance.readV x = result) ∧
    (s.writeResultFlag x result f).advance.readV 15 = f ∧
    (∀ r, r ≠ x → r ≠ 15 → (s.writeResultFlag x result f).advance.readV r = s.readV r) ∧
    (s.writeResultFlag x result f).advance = { s with
      v := (s.writeResultFlag x result f).advance.v, pc := s.pc + 2 } := by
  refine ⟨fun hx => ?_, ?_, fun r hr h15 => ?_, rfl⟩
  · simp [hx]
  · simp
  · simp [hr, h15]

/-! ### The obligations -/

/-- Settles O23: a sum of bytes is the sum modulo 256. -/
theorem addImmediateWritesNoFlag : Obligations.AddImmediateWritesNoFlag := by
  intro x nn s
  refine ⟨_, rfl, ?_, fun _ => s.writeV_advance_readV_ne x _, rfl, s.writeV_advance_frame x _⟩
  rw [s.writeV_advance_readV_same, BitVec.toNat_add]

/-- Settles O24: each result stands in V[X] alone, and the bitwise operations work bit by bit. -/
theorem copyAndLogicWriteNoFlag : Obligations.CopyAndLogicWriteNoFlag := by
  intro x y s
  refine ⟨⟨_, rfl, s.writeV_advance_readV_same x _, fun _ => s.writeV_advance_readV_ne x _, rfl⟩,
    ⟨_, rfl, fun k => ?_, fun _ => s.writeV_advance_readV_ne x _, rfl⟩,
    ⟨_, rfl, fun k => ?_, fun _ => s.writeV_advance_readV_ne x _, rfl⟩,
    ⟨_, rfl, fun k => ?_, fun _ => s.writeV_advance_readV_ne x _, rfl⟩⟩
  · rw [s.writeV_advance_readV_same, BitVec.getLsbD_or]
  · rw [s.writeV_advance_readV_same, BitVec.getLsbD_and]
  · rw [s.writeV_advance_readV_same, BitVec.getLsbD_xor]

/-- Settles O25: the sum modulo 256 with the carry as the flag. -/
theorem addSetsCarryLast : Obligations.AddSetsCarryLast := by
  intro x y s
  obtain ⟨hres, hflag, hother, hframe⟩ := s.writeResultFlag_advance_spec x (s.readV x + s.readV y)
    (carryFlag (s.readV x) (s.readV y))
  refine ⟨_, rfl, fun hx => ?_, ?_, hother, rfl, hframe⟩
  · rw [hres hx, BitVec.toNat_add]
  · rw [hflag, carryFlag_toNat]

/-- Settles O26: the two differences with the not-borrow as the flag. -/
theorem subtractionsSetNotBorrowLast : Obligations.SubtractionsSetNotBorrowLast := by
  intro x y s
  constructor
  · obtain ⟨hres, hflag, hother, hframe⟩ := s.writeResultFlag_advance_spec x (s.readV x - s.readV y)
      (notBorrowFlag (s.readV x) (s.readV y))
    refine ⟨_, rfl, fun hx => ?_, ?_, hother, rfl, hframe⟩
    · rw [hres hx, sub_toNat]
    · rw [hflag, notBorrowFlag_toNat]
  · obtain ⟨hres, hflag, hother, hframe⟩ := s.writeResultFlag_advance_spec x (s.readV y - s.readV x)
      (notBorrowFlag (s.readV y) (s.readV x))
    refine ⟨_, rfl, fun hx => ?_, ?_, hother, rfl, hframe⟩
    · rw [hres hx, sub_toNat]
    · rw [hflag, notBorrowFlag_toNat]

/-- Settles O27: the two shifts with bit 0 of the old value as the flag. -/
theorem shiftsReportBitZeroLast : Obligations.ShiftsReportBitZeroLast := by
  intro x y s
  constructor
  · obtain ⟨hres, hflag, hother, hframe⟩ := s.writeResultFlag_advance_spec x (s.readV x >>> 1)
      (lowBitFlag (s.readV x))
    refine ⟨_, rfl, fun hx => ?_, ?_, hother, rfl, hframe⟩
    · rw [hres hx, BitVec.toNat_ushiftRight, Nat.shiftRight_one]
    · rw [hflag, lowBitFlag_toNat]
  · obtain ⟨hres, hflag, hother, hframe⟩ := s.writeResultFlag_advance_spec x (s.readV x <<< 1)
      (lowBitFlag (s.readV x))
    refine ⟨_, rfl, fun hx => ?_, ?_, hother, rfl, hframe⟩
    · rw [hres hx, shiftLeft_one_toNat]
    · rw [hflag, lowBitFlag_toNat]

/-- Settles O28: the sample masked stands in V[X], so no bit outside the mask is set. -/
theorem randomMasksOneSample : Obligations.RandomMasksOneSample := by
  intro x nn s
  have hx : (s.nextRand.writeV x (s.rndIn &&& nn)).advance.readV x = s.rndIn &&& nn :=
    s.nextRand.writeV_advance_readV_same x _
  refine ⟨_, rfl, hx, ?_, fun _ => s.nextRand.writeV_advance_readV_ne x _, rfl, rfl, rfl⟩
  rw [hx, BitVec.and_assoc, BitVec.and_not_self]
  exact BitVec.and_zero

end Sys2Proof.Machine
end

section
/-! PROOF. Keys, timers and I: the key tests, the moves between a register and a timer, and the
writers of I (spec/43_keyboard.md R170 to R175; spec/44_timers.md; spec/45_memory_index.md R190 to
R192). -/

namespace Sys2Proof.Machine

/-- What a key test sees: the latch for a code up to 15, the open parameter above (R174, R175). -/
theorem State.keyPressed_eq (s : State) (k : Byte) {p : Bool}
    (h : (k.toNat ≤ 15 ∧ p = s.keys.getLsbD k.toNat) ∨ (15 < k.toNat ∧ p = Config.keyOor k)) :
    s.keyPressed k = p := by
  rcases h with ⟨hk, rfl⟩ | ⟨hk, rfl⟩
  · exact if_pos (Nat.lt_succ_of_le hk)
  · exact if_neg (Nat.not_lt.2 hk)

/-- Five times a byte needs no reduction at 16 bits (R192). -/
theorem five_mul_byteOperand_toNat (b : Byte) : (5 * byteOperand b).toNat = 5 * b.toNat := by
  have hb := b.isLt
  rw [BitVec.toNat_mul, byteOperand_toNat, show (5 : Word).toNat = 5 from rfl]
  omega

/-! ### The obligations -/

/-- Settles O33: the tests are `skipIf` on what the key test sees, and on its negation. -/
theorem keyTestsReadTheLatch : Obligations.KeyTestsReadTheLatch := by
  intro x s p h
  have hp := s.keyPressed_eq _ h
  refine ⟨⟨_, rfl, ?_, s.skipIf_frame _⟩, ⟨_, rfl, ?_, s.skipIf_frame _⟩⟩
  · rw [State.skipIf_pc, hp]
  · rw [State.skipIf_pc, hp]
    cases p <;> rfl

/-- Settles O34: the instruction is the change of mode. -/
theorem keyWaitBeginsWithPcKept : Obligations.KeyWaitBeginsWithPcKept :=
  fun _ _ => ⟨_, rfl, rfl, rfl⟩

/-- Settles O37: each move writes its one destination and advances the pc. -/
theorem timerInstructionsMoveBytes : Obligations.TimerInstructionsMoveBytes := by
  intro x s
  refine ⟨⟨_, rfl, s.writeV_advance_readV_same x _, fun _ => s.writeV_advance_readV_ne x _, rfl,
    s.writeV_advance_frame x _⟩, ⟨_, rfl, rfl, rfl, rfl⟩, ⟨_, rfl, rfl, rfl, rfl⟩⟩

/-- Settles O43: I as a number, for each of its three writers. -/
theorem indexInstructionsWriteI : Obligations.IndexInstructionsWriteI := by
  intro x nnn s
  refine ⟨⟨_, rfl, addrOperand_toNat nnn, rfl, rfl⟩, ⟨_, rfl, ?_, rfl, rfl⟩,
    ⟨_, rfl, five_mul_byteOperand_toNat _, rfl, rfl⟩⟩
  rw [State.advance_i, BitVec.toNat_add, byteOperand_toNat]

end Sys2Proof.Machine
end

section
/-! PROOF. The tick in RUN and in WAIT_KEY: the beeper, what a tick leaves alone, and the two ends
of a key-wait (spec/60_exceptions.md R225 to R227; spec/43_keyboard.md R173, R176). -/

namespace Sys2Proof.Machine

theorem State.tick60_st (s : State) :
    s.tick60.st = if 0 < s.st.toNat then s.st - 1 else s.st := by
  rw [State.tick60_frame, State.tickDevices_eq]

theorem State.tick60_beepOut (s : State) : s.tick60.beepOut =
    if 1 < s.st.toNat then true else if s.st.toNat = 1 then false else s.beepOut := by
  rw [State.tick60_frame, State.tickDevices_eq]

/-! ### The tick as a whole, by mode -/

/-- In RUN a tick is its four parts and, after a quit, the mode OFF. -/
theorem State.tick60_of_run {s : State} (h : s.mode = .run) :
    s.tick60 =
      if s.tickDevices.isOn then s.tickDevices else { s.tickDevices with mode := .off } := by
  simp [State.tick60, s.tickDevices_mode, h]

/-- In WAIT_KEY a tick is its four parts and then the scan. -/
theorem State.tick60_of_waiting {s : State} {x : Reg} (h : s.mode = .waitKey x) :
    s.tick60 = s.tickDevices.keyWaitScan x := by
  simp [State.tick60, s.tickDevices_mode, h]

/-! ### The scan, case by case -/

theorem State.keyWaitScan_quit {s : State} (x : Reg) (h : s.isOn = false) :
    s.keyWaitScan x =
      { (s.writeV x (Config.brokenWait s.samples)).advance with mode := .off } := by
  simp [State.keyWaitScan, h]

theorem State.keyWaitScan_none {s : State} (x : Reg) (h : s.isOn = true)
    (hk : firstPressed s.keys = none) : s.keyWaitScan x = s := by
  simp [State.keyWaitScan, h, hk]

theorem State.keyWaitScan_some {s : State} (x : Reg) {k : Nat} (h : s.isOn = true)
    (hk : firstPressed s.keys = some k) :
    s.keyWaitScan x = { (s.writeV x (BitVec.ofNat 8 k)).advance with mode := .run } := by
  simp [State.keyWaitScan, h, hk]

/-! ### The obligations -/

/-- Settles O39: whatever the mode, ST and the beeper are those of the sound tick. -/
theorem beeperFollowsSoundTimer : Obligations.BeeperFollowsSoundTimer := by
  intro s
  rw [s.tick60_st, s.tick60_beepOut]
  refine ⟨timer_floor s.st, fun h => if_pos h, fun h => ?_, fun h => ?_⟩ <;> simp [h]

/-- Settles O42: the fields every tick keeps, and in RUN the tick as one update. -/
theorem tickLeavesProgramState : Obligations.TickLeavesProgramState := by
  intro s
  obtain ⟨hmem, hi, hstack, hsp, hfb, hfault, hcycle, htimer, _⟩ := s.tick60_keeps
  refine ⟨hmem, hi, hstack, hsp, hfb, hfault, hcycle, htimer, fun hrun => ?_⟩
  have hm : s.tickDevices.mode = .run := s.tickDevices_mode.trans hrun
  rw [State.tick60_of_run hrun]
  cases hon : s.tickDevices.isOn with
  | false => exact ⟨s.tickDevices_v, s.tickDevices_pc, (if_neg (by simp [hon])).symm⟩
  | true => exact ⟨s.tickDevices_v, s.tickDevices_pc, hm.trans (if_pos hon).symm⟩

/-- Settles O35: the scan sees the keys just sampled, in a core the tick left on. -/
theorem keyWaitTakesLowestKey : Obligations.KeyWaitTakesLowestKey := by
  intro x s hwait hon hquit
  have hon' : s.tickDevices.isOn = true := by simp [s.tickDevices_isOn, hquit, hon]
  rw [State.tick60_of_waiting hwait]
  refine ⟨fun hnone => ?_, fun k hk hdown hlow => ?_⟩
  · have hf : firstPressed s.tickDevices.keys = none :=
      s.tickDevices_keys ▸ firstPressed_none.2 fun k hk => hnone k (Nat.le_of_lt_succ hk)
    rw [State.keyWaitScan_none x hon' hf]
    exact ⟨s.tickDevices_mode.trans hwait, s.tickDevices_pc, s.tickDevices_v⟩
  · have hf : firstPressed s.tickDevices.keys = some k :=
      s.tickDevices_keys ▸ firstPressed_some (Nat.lt_succ_of_le hk) hdown hlow
    have hscan := State.keyWaitScan_some x hon' hf
    refine ⟨?_, fun r hr => ?_, ?_, ?_⟩
    · have hx : (s.tickDevices.keyWaitScan x).readV x = BitVec.ofNat 8 k := by
        rw [hscan]
        exact s.tickDevices.writeV_advance_readV_same x _
      rw [hx, BitVec.toNat_ofNat]
      omega
    · rw [State.keyWaitScan_readV_ne _ x r hr]
      exact State.readV_congr s.tickDevices_v r
    · rw [hscan]
      exact congrArg (· + 2) s.tickDevices_pc
    · rw [hscan]

/-- Settles O36: the quit is asked before the keys are scanned. -/
theorem quitBreaksTheKeyWait : Obligations.QuitBreaksTheKeyWait := by
  intro x s hwait hquit
  obtain ⟨hmem, _, _, _, _, hfault, _⟩ := s.tick60_keeps
  have hoff : s.tickDevices.isOn = false := by simp [s.tickDevices_isOn, hquit]
  have hscan := State.tick60_of_waiting hwait
  have hmode : s.tick60.mode = .off := by rw [hscan, State.keyWaitScan_quit x hoff]
  have hother : ∀ r, r ≠ x → s.tick60.readV r = s.readV r := fun r hr => by
    rw [hscan, State.keyWaitScan_readV_ne _ x r hr]
    exact State.readV_congr s.tickDevices_v r
  exact ⟨hmode, s.tick60_isOn.trans (if_pos hquit), s.tick60_keys, hother, hmem, hfault⟩

end Sys2Proof.Machine
end

section
/-! PROOF. Memory: reads after writes, the checked accesses, the canonical form, reset and the load
of an image (spec/20_memory.md R50 to R57, R66; spec/10_state.md R43; spec/70_reset_and_hazards.md
R250 to R254). -/

namespace Sys2Proof.Machine

/-! ### A canonical memory is determined by what it reads -/

/-- Below its first entry a rising memory reads the initial contents. -/
theorem Memory.read_of_lt_all {m : Memory} {a : Nat} (h : ∀ c ∈ m, a < c.1) :
    m.read a = Memory.initial a := by
  induction m with
  | nil => rfl
  | cons c m ih =>
    obtain ⟨b, w⟩ := c
    have hab : a < b := h (b, w) (by simp)
    simp only [Memory.read, if_neg (Nat.ne_of_gt hab)]
    exact ih fun c hc => h c (List.mem_cons_of_mem _ hc)

/-- What canonical form says of a memory with a first entry. -/
theorem Memory.wf_cons {c : Host.Cell} {m : Memory} (h : Memory.wf (c :: m)) :
    Memory.wf m ∧ (∀ d ∈ m, c.1 < d.1) ∧ c.2 ≠ Memory.initial c.1 := by
  obtain ⟨hpw, hcells⟩ := h
  rw [List.pairwise_cons] at hpw
  obtain ⟨hfirst, hrest⟩ := hpw
  obtain ⟨_, hne⟩ := hcells c (by simp)
  exact ⟨⟨hrest, fun d hd => hcells d (List.mem_cons_of_mem _ hd)⟩, hfirst, hne⟩

/-- An entry of a canonical memory is read where it says, and not as the initial contents, so that
no memory all of whose entries lie above it reads like it. -/
theorem Memory.exists_read_ne {c : Host.Cell} {m n : Memory} (h : Memory.wf (c :: m))
    (hn : ∀ d ∈ n, c.1 < d.1) : Memory.read (c :: m) c.1 ≠ n.read c.1 := by
  obtain ⟨_, _, hne⟩ := Memory.wf_cons h
  rw [Memory.read_of_lt_all hn]
  simpa [Memory.read] using hne

/-- Canonical memories that read alike have the same first address: at the smaller of the two the
other would read the initial contents. -/
theorem Memory.first_le_of_read_eq {c d : Host.Cell} {m n : Memory} (hm : Memory.wf (c :: m))
    (hn : Memory.wf (d :: n)) (h : ∀ a, Memory.read (c :: m) a = Memory.read (d :: n) a) :
    d.1 ≤ c.1 := by
  by_contra hlt
  rw [Nat.not_le] at hlt
  obtain ⟨_, hfirst, _⟩ := Memory.wf_cons hn
  refine Memory.exists_read_ne hm ?_ (h c.1)
  intro e he
  rcases List.mem_cons.1 he with rfl | he
  · exact hlt
  · exact Nat.lt_trans hlt (hfirst e he)

theorem Memory.eq_of_read_eq {m n : Memory} (hm : m.wf) (hn : n.wf)
    (h : ∀ a, Memory.read m a = Memory.read n a) : m = n := by
  induction m generalizing n with
  | nil =>
    cases n with
    | nil => rfl
    | cons d n => exact absurd (h d.1).symm (Memory.exists_read_ne hn (by simp))
  | cons c m ih =>
    cases n with
    | nil => exact absurd (h c.1) (Memory.exists_read_ne hm (by simp))
    | cons d n =>
      have haddr : c.1 = d.1 := Nat.le_antisymm
        (Memory.first_le_of_read_eq hn hm fun a => (h a).symm) (Memory.first_le_of_read_eq hm hn h)
      have hbyte : c.2 = d.2 := by simpa [Memory.read, haddr] using h c.1
      obtain ⟨hmwf, hmfirst, _⟩ := Memory.wf_cons hm
      obtain ⟨hnwf, hnfirst, _⟩ := Memory.wf_cons hn
      have hrest : ∀ a, Memory.read m a = Memory.read n a := by
        intro a
        by_cases ha : c.1 = a
        · subst ha
          rw [Memory.read_of_lt_all hmfirst, Memory.read_of_lt_all (haddr ▸ hnfirst)]
        · simpa [Memory.read, ha, haddr ▸ ha] using h a
      rw [Prod.ext haddr hbyte, ih hmwf hnwf hrest]

/-! ### Reset and load -/

theorem Memory.initial_of_le {a : Nat} (h : 0x50 ≤ a) : Memory.initial a = 0 :=
  List.getD_eq_default _ _ h

/-- A rejected image leaves memory all zero: the font is overwritten, and nothing stands above it.
-/
theorem Memory.read_fontErased (a : Nat) :
    Memory.read (Memory.writeAll [] 0 (List.replicate font.length 0)) a = 0 := by
  rw [Memory.read_writeAll]
  split
  · simp
  · next h =>
    have ha : 0x50 ≤ a := by simpa [font] using h
    exact Memory.initial_of_le ha

/-! ### The obligations -/

/-- Settles O50: by the law of a write and a read. -/
theorem memoryReadsTheLatestWrite : Obligations.MemoryReadsTheLatestWrite := by
  intro m a b v
  exact ⟨by rw [Memory.read_write, if_pos rfl], fun h => by rw [Memory.read_write, if_neg h]⟩

/-- Settles O51: the two cases of each access; the datum holds an address below 2^17. -/
theorem byteAccessesAreRangeChecked : Obligations.ByteAccessesAreRangeChecked := by
  intro s a v
  refine ⟨fun h => ?_, fun h hdatum => ?_⟩
  · have ha : a < 4096 := Nat.lt_succ_of_le h
    refine ⟨s.memRead_done ha, _, s.memWrite_done v ha, ?_, fun b hb => ?_, rfl⟩
    · exact (Memory.read_write ..).trans (if_pos rfl)
    · exact (Memory.read_write ..).trans (if_neg hb)
  · exact ⟨_, s.memRead_raised h, s.memWrite_raised v h, rfl, s.raise_datum _ hdatum, rfl, rfl⟩

/-- Settles O52: by induction on both lists, see `Memory.eq_of_read_eq`. -/
theorem canonicalMemoriesReadingAlikeAreEqual : Obligations.CanonicalMemoriesReadingAlikeAreEqual :=
  fun _ _ => Memory.eq_of_read_eq

/-- Settles O53: field by field; the glyphs' bytes are the font's. -/
theorem resetStateIsAsListed : Obligations.ResetStateIsAsListed := by
  refine ⟨by decide, rfl, rfl, rfl, by decide, rfl, rfl, fun k => ?_, rfl, rfl, rfl, rfl, rfl, rfl,
    rfl, rfl, rfl, fun a => Memory.initial_of_le, fun d k hd hk => ?_⟩
  · simp [State.cell, State.reset]
  · have hlt : 5 * d + k < font.length := by
      have : font.length = 80 := rfl
      omega
    change some (font.getD (5 * d + k) 0) = _
    rw [List.getD_eq_getElem _ _ hlt, List.getElem?_eq_getElem hlt]

/-- Settles O54: the reads after the run of writes that a load is. -/
theorem loadPlacesOrRejectsTheImage : Obligations.LoadPlacesOrRejectsTheImage := by
  intro rom
  refine ⟨fun h => ?_, fun h => ?_⟩
  · rw [State.powerOn_accepted h]
    refine ⟨fun j hj => ?_, fun a ha => ?_, rfl⟩
    · simp [Memory.read_writeAll, hj]
    · have hout : ¬(0x200 ≤ a ∧ a < 0x200 + rom.length) := by omega
      simp only [Memory.read_writeAll, hout, dite_false]
      rfl
  · have hmode : (State.powerOn rom).mode = .faulted := by
      rw [State.powerOn_rejected h, State.raise_mode]
    have hstop : ∀ t, step (State.powerOn rom) ≠ .next t := by simp [step_faulted hmode]
    refine ⟨?_, ?_, hmode, fun a => ?_, hstop⟩ <;> rw [State.powerOn_rejected h]
    · rfl
    · rfl
    · simp only [State.raise_mem, Memory.read_fontErased]

end Sys2Proof.Machine
end

section
/-! PROOF. The three instructions that access memory at I: the decimal digits, the block store and
the block load, in memory and past its end (spec/45_memory_index.md R193 to R197). -/

namespace Sys2Proof.Machine

/-! ### A run of stores, and then the end of the instruction -/

/-- A store that stays inside memory completes. -/
theorem storeBytes_finish_done (s : State) (a : Nat) (bs : List Byte) (h : a + bs.length ≤ 4096) :
    (s.storeBytes a bs).finish = .next (State.advance { s with mem := s.mem.writeAll a bs }) := by
  rw [s.storeBytes_done a bs h, Access.finish_done]

/-- A store that leaves memory raises at its first address past the end, the bytes below it
stored. -/
theorem storeBytes_finish_raised (s : State) (a : Nat) (bs : List Byte) (hne : bs ≠ [])
    (h : 4096 < a + bs.length) :
    (s.storeBytes a bs).finish = .next
      (State.raise { s with mem := s.mem.writeAll a (bs.take (4096 - a)) } .invalidAddress
        (max a 4096)) := by
  rw [s.storeBytes_raised a bs hne h, Access.finish_raised]

theorem Memory.read_writeAll_in (m : Memory) {a : Nat} {vs : List Byte} {k : Nat}
    (h : k < vs.length) : (Memory.writeAll m a vs).read (a + k) = vs[k] := by
  simp [Memory.read_writeAll, h]

theorem Memory.read_writeAll_out (m : Memory) {a b : Nat} {vs : List Byte}
    (h : b < a ∨ a + vs.length ≤ b) : (Memory.writeAll m a vs).read b = m.read b := by
  have hout : ¬(a ≤ b ∧ b < a + vs.length) := by omega
  rw [Memory.read_writeAll, dif_neg hout]

/-- In the truncated run of writes the bytes below the end of memory are those of the whole run. -/
theorem Memory.read_writeAll_take (m : Memory) {a : Nat} {vs : List Byte} {k : Nat}
    (h : k < vs.length) (hk : a + k < 4096) :
    (Memory.writeAll m a (vs.take (4096 - a))).read (a + k) = vs[k] := by
  have hlen : k < (vs.take (4096 - a)).length := by rw [List.length_take]; omega
  rw [Memory.read_writeAll_in m hlen, List.getElem_take]

theorem Memory.read_writeAll_take_out (m : Memory) {a b : Nat} {vs : List Byte}
    (h : b < a ∨ 0xFFF < b) :
    (Memory.writeAll m a (vs.take (4096 - a))).read b = m.read b := by
  by_cases ha : a ≤ 4096
  · refine Memory.read_writeAll_out m ?_
    rw [List.length_take]
    omega
  · rw [Nat.sub_eq_zero_of_le (Nat.le_of_not_le ha), List.take_zero]
    rfl

/-- The first address past memory's end at or above I fits the datum. -/
theorem State.raise_firstBad_datum (s t : State) :
    (t.raise .invalidAddress (max s.base 4096)).fault.datum.toNat = max s.i.toNat 0x1000 := by
  have hi := s.i.isLt
  exact t.raise_datum _ (by rw [State.base]; omega)

/-! ### The digits of a byte -/

theorem digit_toNat {n : Nat} (h : n < 256) : (BitVec.ofNat 8 n).toNat = n := by
  rw [BitVec.toNat_ofNat]
  exact Nat.mod_eq_of_lt h

theorem bcdDigits_hundreds (b : Byte) :
    ((bcdDigits b)[0]'(by simp [bcdDigits])).toNat = b.toNat / 100 := by
  have hb := b.isLt
  exact digit_toNat (by omega)

theorem bcdDigits_tens (b : Byte) :
    ((bcdDigits b)[1]'(by simp [bcdDigits])).toNat = b.toNat / 10 % 10 :=
  digit_toNat (by omega)

theorem bcdDigits_ones (b : Byte) : ((bcdDigits b)[2]'(by simp [bcdDigits])).toNat = b.toNat % 10 :=
  digit_toNat (by omega)

theorem bcdDigits_length (b : Byte) : (bcdDigits b).length = 3 := rfl

/-! ### The list V[0] to V[X] -/

/-- Entry `r` of the register list is register `r`. -/
theorem regsThrough_get_reg (x r : Reg) (h : r.val < (regsThrough x).length) :
    (regsThrough x)[r.val] = r := Fin.ext (regsThrough_get x r.val h)

theorem regsThrough_map_get (s : State) (x r : Reg)
    (h : r.val < ((regsThrough x).map s.readV).length) :
    ((regsThrough x).map s.readV)[r.val] = s.readV r := by
  rw [List.getElem_map, regsThrough_get_reg]

/-- The first `n` registers of the list have indices below `n` and up to X. -/
theorem lt_of_mem_regsThrough_take {x r : Reg} {n : Nat} (h : r ∈ (regsThrough x).take n) :
    r.val ≤ x.val ∧ r.val < n := by
  refine ⟨(mem_regsThrough x r).1 (List.mem_of_mem_take h), ?_⟩
  obtain ⟨k, hk, rfl⟩ := List.mem_take_iff_getElem.1 h
  rw [regsThrough_get]
  omega

theorem regsThrough_map_length (s : State) (x : Reg) :
    ((regsThrough x).map s.readV).length = x.val + 1 := by
  rw [List.length_map, regsThrough_length]

/-! ### The obligations -/

/-- Settles O44: a run of three stores, complete or cut off at the end of memory. -/
theorem bcdStoresThreeDigits : Obligations.BcdStoresThreeDigits := by
  intro x s
  refine ⟨fun h => ?_, fun h => ?_⟩
  · have hexec : exec (.ldBVx x) s = _ := storeBytes_finish_done s s.base (bcdDigits (s.readV x))
      (by rw [bcdDigits_length, State.base]; omega)
    have hread : ∀ k (hk : k < 3), Memory.read (s.mem.writeAll s.base (bcdDigits (s.readV x)))
        (s.base + k) = (bcdDigits (s.readV x))[k] := fun k hk => Memory.read_writeAll_in s.mem hk
    refine ⟨_, hexec, ?_, ?_, ?_, fun a ha => ?_, rfl, rfl⟩
    · exact (congrArg BitVec.toNat (hread 0 (by decide))).trans (bcdDigits_hundreds _)
    · exact (congrArg BitVec.toNat (hread 1 (by decide))).trans (bcdDigits_tens _)
    · exact (congrArg BitVec.toNat (hread 2 (by decide))).trans (bcdDigits_ones _)
    · exact Memory.read_writeAll_out _ (by rw [bcdDigits_length, State.base]; omega)
  · have hexec : exec (.ldBVx x) s = _ := storeBytes_finish_raised s s.base (bcdDigits (s.readV x))
      (by simp [bcdDigits]) (by rw [bcdDigits_length, State.base]; omega)
    have hread : ∀ k (hk : k < 3), s.base + k ≤ 0xFFF →
        Memory.read (s.mem.writeAll s.base ((bcdDigits (s.readV x)).take (4096 - s.base)))
          (s.base + k) = (bcdDigits (s.readV x))[k] :=
      fun k hk hin => Memory.read_writeAll_take s.mem hk (Nat.lt_succ_of_le hin)
    refine ⟨_, hexec, rfl, s.raise_firstBad_datum _, rfl, fun hin => ?_, fun hin => ?_,
      fun a ha => ?_, rfl⟩
    · exact (congrArg BitVec.toNat (hread 0 (by decide) hin)).trans (bcdDigits_hundreds _)
    · exact (congrArg BitVec.toNat (hread 1 (by decide) hin)).trans (bcdDigits_tens _)
    · exact Memory.read_writeAll_take_out _ ha

/-- Settles O45: a run of stores of V[0] to V[X], complete or cut off at the end of memory. -/
theorem blockStoreCopiesRegisters : Obligations.BlockStoreCopiesRegisters := by
  intro x s
  have hlen := regsThrough_map_length s x
  refine ⟨fun h => ?_, fun h => ?_⟩
  · have hexec : exec (.ldMemVx x) s = _ :=
      storeBytes_finish_done s s.base ((regsThrough x).map s.readV)
        (by rw [hlen, State.base]; omega)
    refine ⟨_, hexec, fun r hr => ?_, fun a ha => ?_, rfl, rfl⟩
    · have hr' : r.val < ((regsThrough x).map s.readV).length := by omega
      exact (Memory.read_writeAll_in _ hr').trans (regsThrough_map_get s x r hr')
    · exact Memory.read_writeAll_out _ (by rw [hlen, State.base]; omega)
  · have hne : (regsThrough x).map s.readV ≠ [] := by simp [regsThrough_ne_nil]
    have hexec : exec (.ldMemVx x) s = _ :=
      storeBytes_finish_raised s s.base ((regsThrough x).map s.readV) hne
        (by rw [hlen, State.base]; omega)
    refine ⟨_, hexec, rfl, s.raise_firstBad_datum _, rfl, fun r hr hin => ?_, fun a ha => ?_, rfl⟩
    · have hr' : r.val < ((regsThrough x).map s.readV).length := by omega
      exact (Memory.read_writeAll_take _ hr' (Nat.lt_succ_of_le hin)).trans
        (regsThrough_map_get s x r hr')
    · exact Memory.read_writeAll_take_out _ ha

/-- Settles O46: a run of loads into V[0] to V[X], complete or cut off at the end of memory. -/
theorem blockLoadCopiesMemory : Obligations.BlockLoadCopiesMemory := by
  intro x s
  have hlen := regsThrough_length x
  have hnodup := regsThrough_nodup x
  refine ⟨fun h => ?_, fun h => ?_⟩
  · obtain ⟨t, ht, hframe, hout, hin⟩ :=
      s.loadRegs_done s.base (regsThrough x) (by rw [hlen, State.base]; omega)
    have hexec : exec (.ldVxMem x) s = .next t.advance := congrArg Access.finish ht
    refine ⟨_, hexec, fun r hr => ?_, fun r hr => ?_, ?_, ?_⟩
    · have hr' : r.val < (regsThrough x).length := by omega
      exact (congrArg t.readV (regsThrough_get_reg x r hr')).symm.trans (hin hnodup r.val hr')
    · exact hout r (by rw [mem_regsThrough]; omega)
    · rw [hframe]; rfl
    · rw [hframe]; rfl
  · obtain ⟨t, ht, hframe, hout, hin⟩ := s.loadRegs_raised s.base (regsThrough x)
      (regsThrough_ne_nil x) (by rw [hlen, State.base]; omega)
    have hexec : exec (.ldVxMem x) s = .next (t.raise .invalidAddress (max s.base 4096)) :=
      congrArg Access.finish ht
    refine ⟨_, hexec, rfl, s.raise_firstBad_datum t, rfl, fun r hr hmem => ?_, fun r hr => ?_, ?_⟩
    · have hr' : r.val < (regsThrough x).length := by omega
      exact (congrArg t.readV (regsThrough_get_reg x r hr')).symm.trans
        (hin hnodup r.val hr' (Nat.lt_succ_of_le hmem))
    · refine hout r fun hr' => ?_
      have hlt := lt_of_mem_regsThrough_take hr'
      rw [State.base] at hlt
      omega
    · rw [hframe]; rfl

end Sys2Proof.Machine
end

section
/-! PROOF. Drawing a sprite: the cells it toggles, the collision in VF and the dirty flag, inside
memory and past its end, and the double-draw law (spec/42_display.md R162, R164). -/

namespace Sys2Proof.Machine

/-! ### What a draw leaves on the display -/

/-- How many of a sprite's `n` rows have their byte in memory. -/
def State.rowsInside (s : State) (n : Nibble) : Nat := min n.toNat (4096 - s.base)

/-- The cells a draw toggles, in its order. -/
def State.drawnCells (s : State) (x y : Reg) (n : Nibble) : List Nat :=
  s.spriteCells (s.readV x).toNat (s.readV y).toNat (List.range (s.rowsInside n))

/-- The state after the rows inside memory are drawn: VF cleared, then their set bits plotted. -/
def State.drawn (s : State) (x y : Reg) (n : Nibble) : State :=
  (s.writeV vf 0).plotAll (s.drawnCells x y n)

/-- A sprite inside memory is drawn whole. -/
theorem exec_drw_done {n : Nibble} {s : State} (x y : Reg)
    (h : n.toNat = 0 ∨ s.i.toNat + n.toNat ≤ 0x1000) :
    exec (.drw x y n) s = .next (s.drawn x y n).advance := by
  have hrows : s.rowsInside n = n.toNat := by rw [State.rowsInside, State.base]; omega
  have hin : ∀ row ∈ List.range n.toNat, (s.writeV vf 0).base + row < 4096 := by
    intro row hrow
    rw [List.mem_range] at hrow
    rw [State.base, State.writeV_i]
    omega
  have hdone := (s.writeV vf 0).drawRows_done (s.readV x).toNat (s.readV y).toNat _ hin
  rw [State.drawn, State.drawnCells, hrows]
  exact congrArg Access.finish hdone

/-- The rows of a sprite that leaves memory: those inside, the first one outside, and the rest. -/
theorem State.range_eq_rowsInside_append (s : State) {n : Nibble} (hn : n.toNat ≠ 0)
    (h : 0x1000 < s.i.toNat + n.toNat) :
    ∃ rest, List.range n.toNat = List.range (s.rowsInside n) ++ s.rowsInside n :: rest := by
  have hlt : s.rowsInside n < n.toNat := by rw [State.rowsInside, State.base]; omega
  obtain ⟨k, hk⟩ := Nat.exists_eq_add_of_lt hlt
  refine ⟨(List.range k).map (s.rowsInside n + 1 + ·), ?_⟩
  rw [hk, Nat.add_right_comm, List.range_add, List.range_succ, List.append_assoc]
  rfl

/-- A sprite that leaves memory raises at its first row outside, the rows inside drawn. -/
theorem exec_drw_raised {n : Nibble} {s : State} (x y : Reg) (hn : n.toNat ≠ 0)
    (h : 0x1000 < s.i.toNat + n.toNat) :
    exec (.drw x y n) s =
      .next ((s.drawn x y n).raise .invalidAddress (max s.base 4096)) := by
  obtain ⟨rest, hrange⟩ := s.range_eq_rowsInside_append hn h
  have hbad : s.base + s.rowsInside n = max s.base 4096 := by
    rw [State.rowsInside, State.base]
    omega
  have hin : ∀ row ∈ List.range (s.rowsInside n), (s.writeV vf 0).base + row < 4096 := by
    intro row hrow
    rw [List.mem_range, State.rowsInside, State.base] at hrow
    rw [State.base, State.writeV_i]
    omega
  have hout : 4096 ≤ (s.writeV vf 0).base + s.rowsInside n :=
    Nat.le_trans (Nat.le_max_right ..) hbad.ge
  have hraised :=
    (s.writeV vf 0).drawRows_raised (s.readV x).toNat (s.readV y).toNat _ rest _ hin hout
  rw [← hrange] at hraised
  rw [← hbad]
  exact congrArg Access.finish hraised

/-! ### The cells of a draw are the sprite's pixels -/

/-- The sprite's pixels are the set bits of its rows inside memory. -/
theorem State.spritePixel_iff (s : State) (n : Nibble) (row col : Nat) :
    s.SpritePixel n row col ↔ row ∈ List.range (s.rowsInside n) ∧ col < 8 ∧
      spriteBit (s.mem.read (s.base + row)) col = true := by
  have hrow : row < n.toNat ∧ s.i.toNat + row ≤ 0xFFF ↔ row < s.rowsInside n := by
    rw [State.rowsInside, State.base]
    omega
  rw [List.mem_range, ← hrow]
  exact ⟨fun ⟨hn, hcol, hin, hbit⟩ => ⟨⟨hn, hin⟩, hcol, hbit⟩,
    fun ⟨⟨hn, hin⟩, hcol, hbit⟩ => ⟨hn, hcol, hin, hbit⟩⟩

/-- The cells a draw toggles are the cells the sprite hits, before the reduction modulo 2048. -/
theorem State.mem_drawnCells (s : State) (x y : Reg) (n : Nibble) (k : Nat) :
    k ∈ s.drawnCells x y n ↔ ∃ row col, s.SpritePixel n row col ∧
      pixelIndex (s.readV x).toNat (s.readV y).toNat row col = k := by
  rw [State.drawnCells, State.mem_spriteCells]
  constructor
  · rintro ⟨row, hrow, col, hcol, hbit, hk⟩
    exact ⟨row, col, (s.spritePixel_iff n row col).2 ⟨hrow, hcol, hbit⟩, hk⟩
  · rintro ⟨row, col, hpixel, hk⟩
    obtain ⟨hrow, hcol, hbit⟩ := (s.spritePixel_iff n row col).1 hpixel
    exact ⟨row, hrow, col, hcol, hbit, hk⟩

theorem State.spriteHits_iff (s : State) (x y : Reg) (n : Nibble) (k : Nat) :
    s.SpriteHits x y n k ↔ k ∈ (s.drawnCells x y n).map (· % 2048) := by
  rw [List.mem_map]
  constructor
  · rintro ⟨row, col, hpixel, hk⟩
    exact ⟨_, (s.mem_drawnCells x y n _).2 ⟨row, col, hpixel, rfl⟩, hk⟩
  · rintro ⟨j, hj, hk⟩
    obtain ⟨row, col, hpixel, rfl⟩ := (s.mem_drawnCells x y n j).1 hj
    exact ⟨row, col, hpixel, hk⟩

theorem State.SpriteHits.lt {s : State} {x y : Reg} {n : Nibble} {k : Nat}
    (h : s.SpriteHits x y n k) : k < 2048 := by
  obtain ⟨row, col, _, rfl⟩ := h
  exact Nat.mod_lt _ (by decide)

theorem State.spriteCollides_iff (s : State) (x y : Reg) (n : Nibble) :
    s.SpriteCollides x y n ↔ ∃ k ∈ s.drawnCells x y n, s.cell k = true := by
  constructor
  · rintro ⟨k, hhit, hcell⟩
    obtain ⟨j, hj, rfl⟩ := List.mem_map.1 ((s.spriteHits_iff x y n k).1 hhit)
    exact ⟨j, hj, s.cell_mod j ▸ hcell⟩
  · rintro ⟨j, hj, hcell⟩
    exact ⟨j % 2048, (s.spriteHits_iff x y n _).2 (List.mem_map_of_mem hj),
      (s.cell_mod j).trans hcell⟩

theorem State.drawnCells_nodup (s : State) (x y : Reg) (n : Nibble) :
    ((s.drawnCells x y n).map (· % 2048)).Nodup := by
  refine s.spriteCells_nodup _ _ _ ?_
  have hn := n.isLt
  rw [State.rowsInside]
  omega

/-! ### The fields after a draw -/

/-- Exactly the cells the sprite hits change. -/
theorem State.cell_drawn_ne_iff (s : State) (x y : Reg) (n : Nibble) {k : Nat} (hk : k < 2048) :
    (s.drawn x y n).cell k ≠ s.cell k ↔ s.SpriteHits x y n k := by
  rw [State.drawn, State.cell_plotAll _ _ (s.drawnCells_nodup x y n), Nat.mod_eq_of_lt hk,
    s.spriteHits_iff, State.cell_writeV]
  by_cases hmem : k ∈ (s.drawnCells x y n).map (· % 2048) <;> simp [hmem]

/-- A collision is reported in VF. -/
theorem State.readV_drawn_of_collides {s : State} {x y : Reg} {n : Nibble}
    (h : s.SpriteCollides x y n) : (s.drawn x y n).readV 15 = 1 := by
  have hset : ∃ k ∈ s.drawnCells x y n, (s.writeV vf 0).cell k = true :=
    (s.spriteCollides_iff x y n).1 h
  rw [State.drawn, State.readV_plotAll _ _ (s.drawnCells_nodup x y n), if_pos ⟨rfl, hset⟩]

/-- Without a collision VF stays as the draw's first action left it. -/
theorem State.readV_drawn_of_not_collides {s : State} {x y : Reg} {n : Nibble}
    (h : ¬ s.SpriteCollides x y n) : (s.drawn x y n).readV 15 = 0 := by
  have hclear : ¬ ∃ k ∈ s.drawnCells x y n, (s.writeV vf 0).cell k = true :=
    fun hset => h ((s.spriteCollides_iff x y n).2 hset)
  rw [State.drawn, State.readV_plotAll _ _ (s.drawnCells_nodup x y n),
    if_neg fun hvf => hclear hvf.2, State.readV_writeV, if_pos rfl]

theorem State.readV_drawn_ne (s : State) (x y : Reg) (n : Nibble) {r : Reg} (h : r ≠ 15) :
    (s.drawn x y n).readV r = s.readV r := by
  rw [State.drawn, State.readV_plotAll_ne _ _ h, State.readV_writeV, if_neg h]

/-- The display is marked dirty when a bit of the sprite is set. -/
theorem State.dirty_drawn (s : State) (x y : Reg) (n : Nibble) :
    (s.drawn x y n).dirty = true ↔ s.dirty = true ∨ ∃ row col, s.SpritePixel n row col := by
  have hempty : (s.drawnCells x y n).isEmpty = false ↔ ∃ row col, s.SpritePixel n row col := by
    rw [List.isEmpty_eq_false_iff_exists_mem]
    constructor
    · rintro ⟨k, hk⟩
      obtain ⟨row, col, hpixel, _⟩ := (s.mem_drawnCells x y n k).1 hk
      exact ⟨row, col, hpixel⟩
    · rintro ⟨row, col, hpixel⟩
      exact ⟨_, (s.mem_drawnCells x y n _).2 ⟨row, col, hpixel, rfl⟩⟩
  rw [State.drawn, State.dirty_plotAll, Bool.or_eq_true, Bool.not_eq_true', hempty,
    State.writeV_dirty]

theorem State.drawn_frame (s : State) (x y : Reg) (n : Nibble) :
    s.drawn x y n = { s with
      v := (s.drawn x y n).v, fb := (s.drawn x y n).fb, dirty := (s.drawn x y n).dirty } := by
  rw [State.drawn, State.plotAll_frame]
  rfl

theorem State.drawn_pc (s : State) (x y : Reg) (n : Nibble) : (s.drawn x y n).pc = s.pc := by
  rw [State.drawn_frame]

theorem State.drawn_mem (s : State) (x y : Reg) (n : Nibble) : (s.drawn x y n).mem = s.mem := by
  rw [State.drawn_frame]

theorem State.drawn_i (s : State) (x y : Reg) (n : Nibble) : (s.drawn x y n).i = s.i := by
  rw [State.drawn_frame]

/-! ### A sprite is the same sprite in a state that agrees on memory, I and the coordinates -/

theorem State.spriteHits_congr {s t : State} {x y : Reg} (n : Nibble) (hmem : t.mem = s.mem)
    (hi : t.i = s.i) (hx : t.readV x = s.readV x) (hy : t.readV y = s.readV y) (k : Nat) :
    t.SpriteHits x y n k ↔ s.SpriteHits x y n k := by
  simp only [State.SpriteHits, State.SpritePixel, State.spriteCell, hmem, hi, hx, hy]

/-! ### The obligations -/

/-- Settles O30: all rows are inside memory, and the draw is followed by the advance of the pc. -/
theorem drawTogglesTheSpritesCells : Obligations.DrawTogglesTheSpritesCells := by
  intro x y n s h
  refine ⟨_, exec_drw_done x y h, fun k => s.cell_drawn_ne_iff x y n,
    State.readV_drawn_of_collides, State.readV_drawn_of_not_collides, s.dirty_drawn x y n,
    fun r => s.readV_drawn_ne x y n, ?_, ?_⟩
  · rw [State.advance_pc, s.drawn_pc]
  · rw [s.drawn_frame]
    rfl

/-- Settles O31: the rows inside memory are drawn, and the first one outside raises. -/
theorem drawPastMemoryRaises : Obligations.DrawPastMemoryRaises := by
  intro x y n s hn h
  refine ⟨_, exec_drw_raised x y hn h, rfl, s.raise_firstBad_datum _, rfl,
    fun k => s.cell_drawn_ne_iff x y n, State.readV_drawn_of_collides,
    State.readV_drawn_of_not_collides, s.dirty_drawn x y n, fun r => s.readV_drawn_ne x y n, ?_⟩
  rw [s.drawn_frame]
  rfl

/-- Settles O32: the second draw hits the same cells, so it undoes the first, and finds set exactly
the ones the first found clear. -/
theorem drawingTwiceRestoresTheBuffer : Obligations.DrawingTwiceRestoresTheBuffer := by
  intro x y n s t u h hst hx hy htu
  have ht : t = (s.drawn x y n).advance :=
    Host.Outcome.next.inj (hst.symm.trans (exec_drw_done x y h))
  have hmem : t.mem = s.mem := by rw [ht, State.advance_mem, s.drawn_mem]
  have hi : t.i = s.i := by rw [ht, State.advance_i, s.drawn_i]
  have hu : u = (t.drawn x y n).advance :=
    Host.Outcome.next.inj (htu.symm.trans (exec_drw_done x y (hi ▸ h)))
  have hits : ∀ k, t.SpriteHits x y n k ↔ s.SpriteHits x y n k :=
    State.spriteHits_congr n hmem hi hx hy
  have hfirst : ∀ k, k < 2048 → (t.cell k ≠ s.cell k ↔ s.SpriteHits x y n k) := by
    rw [ht]
    exact fun k => s.cell_drawn_ne_iff x y n
  have hsecond : ∀ k, k < 2048 → (u.cell k ≠ t.cell k ↔ s.SpriteHits x y n k) := by
    rw [hu]
    exact fun k hk => (t.cell_drawn_ne_iff x y n hk).trans (hits k)
  have hcollides : t.SpriteCollides x y n ↔ ∃ k, s.SpriteHits x y n k ∧ s.cell k = false := by
    refine exists_congr fun k => ?_
    rw [hits]
    refine and_congr_right fun hhit => ?_
    have hne := (hfirst k hhit.lt).2 hhit
    cases hs : s.cell k <;> simp_all
  have hfb : u.fb = s.fb := by
    refine State.fb_ext fun k hk => ?_
    have hsame := (hsecond k hk).trans (hfirst k hk).symm
    revert hsame
    cases u.cell k <;> cases t.cell k <;> cases s.cell k <;> simp
  refine ⟨hfb, ?_⟩
  rw [← hcollides, hu, State.advance_readV]
  by_cases hc : t.SpriteCollides x y n
  · simp [State.readV_drawn_of_collides hc, hc]
  · simp [State.readV_drawn_of_not_collides hc, hc]

end Sys2Proof.Machine
end

section
/-! PROOF. The levels on key_in and quit_in between ticks: no instruction reads them
(spec/00_scope.md R9; spec/10_state.md R38). -/

namespace Sys2Proof.Machine

/-! ### Operations commute with a change of the two levels -/

/-- The state with other levels on key_in and quit_in. -/
def State.withLevels (k : BitVec 16) (q : Bool) (s : State) : State :=
  { s with keyIn := k, quitIn := q }

/-- A function on the state inside an access. -/
def Access.map {α : Type} (f : State → State) : Access α → Access α
  | .done v s => .done v (f s)
  | .raised s => .raised (f s)

section
variable (k : BitVec 16) (q : Bool)

theorem finish_withLevels (r : Access Unit) :
    (r.map (State.withLevels k q)).finish = mapNext (State.withLevels k q) r.finish := by
  cases r <;> rfl

theorem storeBytes_withLevels (s : State) (a : Nat) (bs : List Byte) :
    (s.withLevels k q).storeBytes a bs = (s.storeBytes a bs).map (State.withLevels k q) := by
  induction bs generalizing s a with
  | nil => rfl
  | cons b bs ih =>
    rcases Nat.lt_or_ge a 4096 with h | h
    · rw [State.storeBytes, State.storeBytes, State.memWrite_done _ b h, State.memWrite_done _ b h]
      exact ih { s with mem := s.mem.write a b } (a + 1)
    · rw [State.storeBytes, State.storeBytes, State.memWrite_raised _ b h,
        State.memWrite_raised _ b h]
      rfl

theorem loadRegs_withLevels (s : State) (a : Nat) (rs : List Reg) :
    (s.withLevels k q).loadRegs a rs = (s.loadRegs a rs).map (State.withLevels k q) := by
  induction rs generalizing s a with
  | nil => rfl
  | cons r rs ih =>
    rcases Nat.lt_or_ge a 4096 with h | h
    · rw [State.loadRegs, State.loadRegs, State.memRead_done _ h, State.memRead_done _ h]
      exact ih (s.writeV r (s.mem.read a)) (a + 1)
    · rw [State.loadRegs, State.loadRegs, State.memRead_raised _ h, State.memRead_raised _ h]
      rfl

theorem plot_withLevels (s : State) (j : Nat) :
    (s.withLevels k q).plot j = (s.plot j).withLevels k q := by
  have hcell : (s.withLevels k q).cell j = s.cell j := rfl
  unfold State.plot
  rw [hcell]
  split <;> rfl

theorem plotAll_withLevels (s : State) (js : List Nat) :
    (s.withLevels k q).plotAll js = (s.plotAll js).withLevels k q := by
  induction js generalizing s with
  | nil => rfl
  | cons j js ih =>
    have h := ih (s.plot j)
    rw [← plot_withLevels] at h
    exact h

theorem drawRows_withLevels (s : State) (x y : Nat) (rows : List Nat) :
    (s.withLevels k q).drawRows x y rows =
      (s.drawRows x y rows).map (State.withLevels k q) := by
  induction rows generalizing s with
  | nil => rfl
  | cons row rows ih =>
    have hbase : (s.withLevels k q).base = s.base := rfl
    rcases Nat.lt_or_ge (s.base + row) 4096 with h | h
    · rw [State.drawRows, State.drawRows, hbase, State.memRead_done _ h, State.memRead_done _ h]
      simp only
      rw [State.drawRow_eq, State.drawRow_eq, plotAll_withLevels]
      exact ih _
    · rw [State.drawRows, State.drawRows, hbase, State.memRead_raised _ h, State.memRead_raised _ h]
      rfl

/-- No instruction reads the two levels or changes them. -/
theorem exec_withLevels (i : Instr) (s : State) :
    exec i (s.withLevels k q) = mapNext (State.withLevels k q) (exec i s) := by
  cases i with
  | ret =>
    rcases s.sp_cases with h | ⟨j, hj, h⟩
    · rw [exec_ret_of_empty h]
      exact exec_ret_of_empty h
    · rw [exec_ret_of_pos hj h]
      exact exec_ret_of_pos hj h
  | callAddr nnn =>
    rcases Nat.lt_or_eq_of_le (Nat.le_of_lt_succ s.sp.isLt) with h | h
    · rw [exec_callAddr_of_free nnn h]
      exact exec_callAddr_of_free nnn (s := s.withLevels k q) h
    · rw [exec_callAddr_of_full nnn h]
      exact exec_callAddr_of_full nnn h
  | drw x y n =>
    have h := drawRows_withLevels k q (s.writeV vf 0) (s.readV x).toNat (s.readV y).toNat
      (List.range n.toNat)
    exact (congrArg Access.finish h).trans (finish_withLevels k q _)
  | ldBVx | ldMemVx =>
    exact (congrArg Access.finish (storeBytes_withLevels k q s _ _)).trans (finish_withLevels k q _)
  | ldVxMem =>
    exact (congrArg Access.finish (loadRegs_withLevels k q s _ _)).trans (finish_withLevels k q _)
  | _ => rfl

theorem fetch_withLevels (s : State) :
    (s.withLevels k q).fetch = s.fetch.map (State.withLevels k q) := by
  rcases Nat.lt_or_ge 0xFFE s.pc.toNat with h | h
  · rw [s.fetch_raised h, State.fetch_raised (s.withLevels k q) h]
    rfl
  · rw [s.fetch_done h, State.fetch_done (s.withLevels k q) h]
    rfl

theorem cpuStep_withLevels (s : State) :
    cpuStep (s.withLevels k q) = mapNext (State.withLevels k q) (cpuStep s) := by
  simp only [cpuStep, fetch_withLevels]
  cases s.fetch with
  | raised t => rfl
  | done op t =>
    simp only [Access.map]
    cases decode op with
    | ok i => exact exec_withLevels k q i t
    | error e => rfl

/-- With no tick due, the end of an iteration gives the ports their next samples, whatever their
levels were. -/
theorem tickGate_nextSamples_withLevels {s : State} (h : s.timerAcc ≤ 16666) :
    (s.withLevels k q).tickGate.nextSamples = s.tickGate.nextSamples := by
  rw [State.tickGate_closed (.inr h), State.tickGate_closed (s := s.withLevels k q) (.inr h)]
  rfl

end

/-! ### The obligation -/

/-- Settles O49: up to its end the iteration only carries the two levels along. -/
theorem keyAndQuitPortsUnseenBetweenTicks : Obligations.KeyAndQuitPortsUnseenBetweenTicks := by
  intro s k q htimer hmode
  change step (s.withLevels k q) = step s
  have hact := State.active_of_mode hmode
  rcases Nat.lt_or_ge 1666 s.addTime.cycleAcc with hc | hc
  · rcases hmode with hrun | ⟨x, hx⟩
    · obtain ⟨u, hu, heffect⟩ := cpuStep_effect s.addTime
      obtain ⟨_, _, _, htimer', _⟩ := heffect.keeps_outside
      have hu' : cpuStep (s.withLevels k q).addTime = .next (u.withLevels k q) := by
        have hcomm := cpuStep_withLevels k q s.addTime
        rwa [hu] at hcomm
      rw [step_of_gate_open hrun hc, step_of_gate_open (s := s.withLevels k q) hrun hc, hu, hu',
        mapNext_next, mapNext_next]
      exact congrArg _ (tickGate_nextSamples_withLevels k q (s := u.clearCycle) (htimer' ▸ htimer))
    · rw [step_of_gate_open_waiting hx hc, step_of_gate_open_waiting (s := s.withLevels k q) hx hc]
      exact congrArg _ (tickGate_nextSamples_withLevels k q (s := s.addTime.clearCycle) htimer)
  · rw [step_of_gate_closed hact hc, step_of_gate_closed (s := s.withLevels k q) hact hc]
    exact congrArg _ (tickGate_nextSamples_withLevels k q (s := s.addTime) htimer)

end Sys2Proof.Machine
end
